-- ==== Sys2Proof/Config.lean ====
section
/-! DEFINITION. The parameters of the engine (00_scope.md R8) and the values the spec leaves open. -/

namespace Sys2Proof.Config

/-- NBITS (R8, R21): the width of every operand register. -/
abbrev nbits : Nat := 4096

/-- LIMB (R8): the width of one limb and of one bus word. -/
abbrev limbBits : Nat := 32

/-- NLIMBS = NBITS / 32 (R8). -/
abbrev nlimbs : Nat := 128

/-- NREGS (R8, R21). -/
abbrev nregs : Nat := 8

/-- STRIDE = NBITS / 8 (R8): the bytes between operand registers in the X window. -/
abbrev stride : Nat := 0x200

/-- X_BASE (R8): the offset of X0's limb 0. -/
abbrev xBase : Nat := 0x1000

/-- APERTURE = X_BASE + NREGS · STRIDE (R8, R51). -/
abbrev aperture : Nat := 0x2000

/-- HAS_MONT (R3, R8): this spec's engine has MONTMUL. -/
def hasMont : Bool := true

/-- ITERS_MAX (R8): the largest ISPRIME iteration count the 12-bit IMM holds. -/
abbrev itersMax : Nat := 4095

/-- The ID register's constant, the bytes "MEX1" (R33). -/
def idWord : BitVec 32 := 0x4D455831

/-- The PARAM register (R34): NLIMBS in bits 15:0, NREGS in bits 23:16, HAS_MONT in bit 24. -/
def paramWord : BitVec 32 := BitVec.ofNat 32 (nlimbs + nregs * 2 ^ 16 + hasMont.toNat * 2 ^ 24)

/-- Which aperture-sized block the platform maps the engine at: OPEN (R8, R51, I4), log 12. -/
opaque baseBlock : Nat

/-- BASE (R8, R51): the physical address of offset 0, aligned to APERTURE. -/
def base : Nat := baseBlock * aperture

/-- The offset the engine sees for a physical address, if the address lies in its aperture (R51). -/
def offsetOf (addr : Nat) : Option Nat :=
  if base ≤ addr ∧ addr < base + aperture then some (addr - base) else none

/-- FREE VALUE. The word an X-window read returns while BUSY (20_memory.md R57, I1), one per draw: log 5. -/
opaque busyReadWord : Nat → BitVec 32

/-- FREE VALUE. What the witness source `witness_draw` gives (R8, 43_primality.md R186, I3), one per draw, before it
is brought into the candidate's range [2, n−2]: log 6. -/
opaque witnessDraw : Nat → Nat

end Sys2Proof.Config
end

