-- ==== Sys2Proof/Syntax.lean ====
section
/-! DEFINITION. The commands of the engine, one constructor per row of the opcode map (30_encoding.md R85, R90). -/

namespace Sys2Proof

/-- The number of an operand register X0 to X7 (R82, R94). -/
abbrev Reg := Fin 8

/-- A legal command with the fields its row uses (R85, R93). -/
inductive Instr where
  /-- `NOP` (40_command_lifecycle.md R110). -/
  | nop
  /-- `GCD rd, ra, rb` (41_gcd_inverse.md R130). -/
  | gcd (rd ra rb : Reg)
  /-- `MODINV rd, ra, rm` (41_gcd_inverse.md R135). -/
  | modinv (rd ra rm : Reg)
  /-- `MODEXP rd, ra, rb, rm`: RA the base, RB the exponent (42_modexp.md R150). -/
  | modexp (rd ra rb rm : Reg)
  /-- `MODMUL rd, ra, rb, rm` (42_modexp.md R155). -/
  | modmul (rd ra rb rm : Reg)
  /-- `MODRED rd, ra, rm` (42_modexp.md R157). -/
  | modred (rd ra rm : Reg)
  /-- `MONTMUL rd, ra, rb, rm`, present when HAS_MONT = 1 (42_modexp.md R160, R88). -/
  | montmul (rd ra rb rm : Reg)
  /-- `MRROUND rd, ra, rb`: RA the candidate, RB the witness (43_primality.md R182). -/
  | mrround (rd ra rb : Reg)
  /-- `ISPRIME rd, ra, #iters` (43_primality.md R186). -/
  | isprime (rd ra : Reg) (iters : Nat)
  deriving DecidableEq, Repr

end Sys2Proof
end

