-- ==== Sys2Proof/Word.lean ====
section
/-! DEFINITION. The two bit-vector types of the engine: the bus word (LIMB = 32 bits) and the operand register's value (NBITS = 4096
bits) (00_scope.md R8, R9, R10). -/

namespace Sys2Proof

/-- One bus word or one limb (R10): an unsigned integer below 2^32. -/
abbrev Word := BitVec 32

/-- An operand register's value (R10, R21): an unsigned integer below 2^NBITS. -/
abbrev Operand := BitVec 4096

end Sys2Proof
end

