-- ==== Sys2Proof/Machine/State.lean ====
section
/-! DEFINITION. The state of the machine: the engine's record as 10_state.md R37 lists it, and beside it the inputs still
to come, the last bus response and the count of free values drawn (log 1, log 4, log 7). All of it is plain data. -/

namespace Sys2Proof.Machine

/-- The error codes the engine produces (60_exceptions.md R211); codes 5 to 15 are never produced (I9). -/
inductive ErrCode where
  | none
  | illegalCmd
  | modZero
  | badArg
  | aborted
  deriving DecidableEq, Repr

/-- The operand values and the immediate captured when a command is accepted (40_command_lifecycle.md R103). -/
structure Snapshot where
  a : Operand
  b : Operand
  m : Operand
  imm : Nat
  compat : Bool
  deriving DecidableEq, Repr

/-- The command latched at accept, `cur` of 10_state.md R35: the decoded command (its OP and RD) and the snapshot.
Meaningful only while BUSY = 1. -/
structure Latched where
  cmd : Instr
  snap : Snapshot
  deriving DecidableEq, Repr

/-- CTRL's two stored fields (10_state.md R26); ABORT and SRST are write-only actions. -/
structure Ctrl where
  ie : Bool
  mrCompat : Bool
  deriving DecidableEq, Repr

/-- STATUS (10_state.md R28). -/
structure Status where
  busy : Bool
  done : Bool
  err : Bool
  noinv : Bool
  prime : Bool
  ovr : Bool
  errcode : ErrCode
  deriving DecidableEq, Repr

/-- The complete engine state (10_state.md R37). -/
structure Engine where
  x : Vector Operand 8
  ctrl : Ctrl
  status : Status
  lastCmd : Word
  cur : Latched
  deriving DecidableEq, Repr

/-- The width of a host access. Only `word`, 32 bits, is performed (20_memory.md R53). -/
inductive Width where
  | byte
  | half
  | word
  | wide
  deriving DecidableEq, Repr

/-- One input of the machine: what comes next in the total order of 20_memory.md R62. Offsets are relative to BASE (R51). -/
inductive Event where
  /-- A host read (R52), or an instruction fetch, which the engine does not tell from a read (R53). -/
  | read (off : Nat) (width : Width)
  /-- A host write (R52) of the word `v`; the value of an access that is not 32 bits wide has no effect (R53). -/
  | write (off : Nat) (width : Width) (v : Word)
  /-- The point where the engine takes its completion step, if it is enabled (40_command_lifecycle.md R106). -/
  | complete
  /-- `rst` asserted, or power lost and restored (70_reset_and_hazards.md R240; 60_exceptions.md R230). -/
  | reset
  deriving DecidableEq, Repr

/-- What the bus gave back to the most recent host access (20_memory.md R50, R53). -/
inductive Response where
  /-- No host access has been made yet. -/
  | none
  /-- OKAY to a write. -/
  | okay
  /-- OKAY to a read, with its data. -/
  | data (v : Word)
  /-- ERROR: the distinct outcome `BusError` (R53). -/
  | busError
  deriving DecidableEq, Repr

/-- The machine's state. `engine` is the spec's (R37); the other three fields are the model's own. -/
structure State where
  engine : Engine
  schedule : List Event
  response : Response
  draws : Nat
  deriving DecidableEq, Repr

/-- Why a step stops. -/
inductive Fault where
  /-- Raised by a bus access (`busRead`, `busWrite`) at an offset at or beyond APERTURE, which the engine does not decode:
  what it reaches is the platform's concern (20_memory.md R56). Safe: the hardware's engine is not touched by such an
  access, and the model says nothing about what follows. No command raises it. -/
  | outsideAperture (off : Nat)
  deriving DecidableEq, Repr

/-- Why a command has no meaning here. -/
inductive Refusal where
  /-- Raised by `exec` for a command that is not modelled yet. Safe: the machine stops. No arm raises it. -/
  | notModelled (mnemonic : String)
  deriving DecidableEq, Repr

/-- `cur` after reset. The spec leaves it undefined while BUSY = 0, where nothing reads it (R37, R240): DESIGN CHOICE, log 8. -/
def Latched.reset : Latched := ⟨.nop, ⟨0, 0, 0, 0, false⟩⟩

/-- Every engine register at the value of 70_reset_and_hazards.md R240. -/
def Engine.reset : Engine where
  x := Vector.replicate 8 0
  ctrl := ⟨false, false⟩
  status := ⟨false, false, false, false, false, false, .none⟩
  lastCmd := 0
  cur := .reset

/-- The machine right after hardware reset (R240): the engine idle, no input waiting (log 1). -/
def State.reset : State where
  engine := .reset
  schedule := []
  response := .none
  draws := 0

end Sys2Proof.Machine
end

