-- ==== Sys2Proof/Machine/Flags.lean ====
section
/-! DEFINITION. CTRL and STATUS: their words as read (10_state.md R27, R28), the fields each event writes, and `irq`. -/

namespace Sys2Proof.Machine

/-- STATUS.ERRCODE's 4 bits (60_exceptions.md R211). -/
def ErrCode.code : ErrCode → BitVec 4
  | .none => 0
  | .illegalCmd => 1
  | .modZero => 2
  | .badArg => 3
  | .aborted => 4

/-- CTRL as read: `{28'b0, 0, 0, MR_COMPAT, IE}` (10_state.md R27). -/
def Ctrl.word (c : Ctrl) : Word := 0#30 ++ BitVec.ofBool c.mrCompat ++ BitVec.ofBool c.ie

/-- STATUS as read (10_state.md R28): ERRCODE in bits 11:8, then OVR, PRIME, NOINV, ERR, DONE and BUSY in bits 5 to 0;
every other bit reads as 0. -/
def Status.word (st : Status) : Word :=
  0#20 ++ st.errcode.code ++ 0#2 ++ BitVec.ofBool st.ovr ++ BitVec.ofBool st.prime ++ BitVec.ofBool st.noinv ++
    BitVec.ofBool st.err ++ BitVec.ofBool st.done ++ BitVec.ofBool st.busy

/-- CTRL's stored fields after a write without SRST (10_state.md R27). -/
def Ctrl.ofWord (v : Word) : Ctrl := ⟨v[0], v[1]⟩

/-- A write of `v` to STATUS (10_state.md R29): W1C of DONE, of ERR with ERRCODE, and of OVR. -/
def Status.w1c (st : Status) (v : Word) : Status :=
  { st with
    done := st.done && !v[1]
    err := st.err && !v[2]
    errcode := if v[2] then .none else st.errcode
    ovr := st.ovr && !v[5] }

/-- `clear_outcome()` (40_command_lifecycle.md R102). OVR is not touched. -/
def Status.clearOutcome (st : Status) : Status :=
  { st with done := false, err := false, errcode := .none, noinv := false, prime := false }

/-- The outcome of an error (60_exceptions.md R212): BUSY = 0, DONE = 1, ERR = 1, ERRCODE = code. -/
def Status.failed (st : Status) (code : ErrCode) : Status :=
  { st with busy := false, done := true, err := true, errcode := code }

/-- The outcome of a completion (40_command_lifecycle.md R106); ERR stays as it is. -/
def Status.completed (st : Status) (noinv prime : Bool) : Status :=
  { st with busy := false, done := true, noinv := noinv, prime := prime }

/-- The interrupt output, a level: IE ∧ DONE (60_exceptions.md R220). -/
def Engine.irq (e : Engine) : Bool := e.ctrl.ie && e.status.done

end Sys2Proof.Machine
end

