-- ==== Sys2Proof/WellFormed.lean ====
section
/-! DEFINITION. Which terms of `Instr` are commands of the engine: the checks an encoder and an assembler make
(30_encoding.md R88, R93). Register numbers need no check: `Reg` holds 0 to 7 only (R82). -/

namespace Sys2Proof

/-- A command of an engine with or without the Montgomery option: MONTMUL needs the option (R88), and ISPRIME's count
must fit IMM (R93: "the assembler refuses larger values"). -/
def Instr.wellFormedWith (hasMont : Bool) : Instr → Bool
  | .nop => true
  | .gcd _ _ _ => true
  | .modinv _ _ _ => true
  | .modexp _ _ _ _ => true
  | .modmul _ _ _ _ => true
  | .modred _ _ _ => true
  | .montmul _ _ _ _ => hasMont
  | .mrround _ _ _ => true
  | .isprime _ _ iters => decide (iters ≤ Config.itersMax)

/-- A command of this engine (HAS_MONT = 1, R3). -/
abbrev Instr.WellFormed (i : Instr) : Prop := i.wellFormedWith Config.hasMont = true

end Sys2Proof
end

