-- ==== Sys2Proof/Decode.lean ====
section
/-! DEFINITION. The command word CMD32: its fields, the opcode map, the decoder and the encoder
(30_encoding.md R80 to R92), the pseudo-commands (R95), and the decoder the host asks by table word. -/

namespace Sys2Proof

/-- The fields of a command word (R81), the reserved bits 19:18 apart. -/
structure Fields where
  op  : BitVec 6
  rd  : Reg
  ra  : Reg
  rb  : Reg
  rm  : Reg
  imm : Nat
  deriving DecidableEq, Repr

/-- OP, bits 5:0 (R81). -/
def opField (v : Word) : BitVec 6 := v.extractLsb' 0 6

/-- RD, bits 8:6 (R81). -/
def rdField (v : Word) : Reg := (v.extractLsb' 6 3).toFin

/-- RA, bits 11:9 (R81). -/
def raField (v : Word) : Reg := (v.extractLsb' 9 3).toFin

/-- RB, bits 14:12 (R81). -/
def rbField (v : Word) : Reg := (v.extractLsb' 12 3).toFin

/-- RM, bits 17:15 (R81). -/
def rmField (v : Word) : Reg := (v.extractLsb' 15 3).toFin

/-- IMM, bits 31:20, zero-extended (R81, R82). -/
def immField (v : Word) : Nat := (v.extractLsb' 20 12).toNat

/-- The match and mask columns of one row of the opcode map (R85). -/
structure Row where
  val  : Word
  mask : Word
  deriving DecidableEq, Repr

/-- A word spells a command when `v & mask == match` (R85). -/
def Row.hits (r : Row) (v : Word) : Bool := v &&& r.mask == r.val

/-- The opcode map (R85), row by row. -/
def nopRow     : Row := ⟨0x00000000, 0xFFFFFFFF⟩
def gcdRow     : Row := ⟨0x00000001, 0xFFFF803F⟩
def modinvRow  : Row := ⟨0x00000002, 0xFFFC703F⟩
def modexpRow  : Row := ⟨0x00000003, 0xFFFC003F⟩
def modmulRow  : Row := ⟨0x00000004, 0xFFFC003F⟩
def modredRow  : Row := ⟨0x00000005, 0xFFFC703F⟩
def montmulRow : Row := ⟨0x00000006, 0xFFFC003F⟩
def mrroundRow : Row := ⟨0x00000008, 0xFFFF803F⟩
def isprimeRow : Row := ⟨0x00000009, 0x000FF03F⟩

/-- The rows an engine has: MONTMUL's is absent when HAS_MONT = 0 (R85, R88). -/
def rows (hasMont : Bool) : List Row :=
  [nopRow, gcdRow, modinvRow, modexpRow, modmulRow, modredRow] ++ (if hasMont then [montmulRow] else []) ++
    [mrroundRow, isprimeRow]

/-- The row of a command (R85). -/
def Instr.row : Instr → Row
  | .nop => nopRow
  | .gcd _ _ _ => gcdRow
  | .modinv _ _ _ => modinvRow
  | .modexp _ _ _ _ => modexpRow
  | .modmul _ _ _ _ => modmulRow
  | .modred _ _ _ => modredRow
  | .montmul _ _ _ _ => montmulRow
  | .mrround _ _ _ => mrroundRow
  | .isprime _ _ _ => isprimeRow

/-- The decoder (R91), for an engine with or without MONTMUL; `none` is Illegal (R87). -/
def decodeWith (hasMont : Bool) (v : Word) : Option Instr :=
  if nopRow.hits v then some .nop
  else if gcdRow.hits v then some (.gcd (rdField v) (raField v) (rbField v))
  else if modinvRow.hits v then some (.modinv (rdField v) (raField v) (rmField v))
  else if modexpRow.hits v then some (.modexp (rdField v) (raField v) (rbField v) (rmField v))
  else if modmulRow.hits v then some (.modmul (rdField v) (raField v) (rbField v) (rmField v))
  else if modredRow.hits v then some (.modred (rdField v) (raField v) (rmField v))
  else if hasMont && montmulRow.hits v then some (.montmul (rdField v) (raField v) (rbField v) (rmField v))
  else if mrroundRow.hits v then some (.mrround (rdField v) (raField v) (rbField v))
  else if isprimeRow.hits v then some (.isprime (rdField v) (raField v) (immField v))
  else none

/-- This engine's decoder (HAS_MONT = 1, R3). -/
def decode (v : Word) : Option Instr := decodeWith Config.hasMont v

/-- A command's fields; those it does not use are 0 (R86), so the unused register fields name X0 (R103). -/
def Instr.fields : Instr → Fields
  | .nop => ⟨0x00, 0, 0, 0, 0, 0⟩
  | .gcd rd ra rb => ⟨0x01, rd, ra, rb, 0, 0⟩
  | .modinv rd ra rm => ⟨0x02, rd, ra, 0, rm, 0⟩
  | .modexp rd ra rb rm => ⟨0x03, rd, ra, rb, rm, 0⟩
  | .modmul rd ra rb rm => ⟨0x04, rd, ra, rb, rm, 0⟩
  | .modred rd ra rm => ⟨0x05, rd, ra, 0, rm, 0⟩
  | .montmul rd ra rb rm => ⟨0x06, rd, ra, rb, rm, 0⟩
  | .mrround rd ra rb => ⟨0x08, rd, ra, rb, 0, 0⟩
  | .isprime rd ra iters => ⟨0x09, rd, ra, 0, 0, iters⟩

/-- `op | rd<<6 | ra<<9 | rb<<12 | rm<<15 | imm<<20` (R92). -/
def Fields.word (f : Fields) : Word :=
  f.op.setWidth 32 ||| BitVec.ofNat 32 f.rd <<< 6 ||| BitVec.ofNat 32 f.ra <<< 9 ||| BitVec.ofNat 32 f.rb <<< 12 |||
    BitVec.ofNat 32 f.rm <<< 15 ||| BitVec.ofNat 32 f.imm <<< 20

/-- The encoder (R92): the one word of a command (R80). -/
def encode (i : Instr) : Word := i.fields.word

/-- The pseudo-commands (R95) and the one command each expands to. -/
def modsqr (rd ra rm : Reg) : Instr := .modmul rd ra ra rm
def encblk (rd rmsg re rn : Reg) : Instr := .modexp rd rmsg re rn
def decblk (rd rc rdexp rn : Reg) : Instr := .modexp rd rc rdexp rn
def sign (rd rmsg rdexp rn : Reg) : Instr := .modexp rd rmsg rdexp rn
def verstep (rd rsig re rn : Reg) : Instr := .modexp rd rsig re rn
def tomont (rd ra rr2 rm : Reg) : Instr := .montmul rd ra rr2 rm
def frommont (rd ra rone rm : Reg) : Instr := .montmul rd ra rone rm

/-- What this decoder reads from a table row's word: one CMD write is one 32-bit word (R80), bit 0 the least
significant; bits above the row's own are 0. -/
def decodeTableWord (nbits w : Nat) : Option Instr :=
  if nbits ≤ 32 then decode (BitVec.ofNat 32 (w % 2 ^ nbits)) else none

end Sys2Proof
end

