-- ==== Sys2Proof/Machine/Operands.lean ====
section
/-! DEFINITION. The operand registers and how they are named: register reads and writes, limbs, the address map of the
aperture, and the snapshot of a command's sources. -/

namespace Sys2Proof.Machine

/-- `X[r]` (00_scope.md R11; 10_state.md R21: no register is hardwired). -/
def Engine.reg (e : Engine) (r : Reg) : Operand := e.x[r.val]

/-- `X[r] <- v` (00_scope.md R11). -/
def Engine.setReg (e : Engine) (r : Reg) (v : Operand) : Engine := { e with x := e.x.set r.val v }

/-- Limb j of an operand, bits [32j+31 : 32j]; limb 0 is the least significant (20_memory.md R54, R55). -/
def limb (x : Operand) (j : Fin 128) : Word := x.extractLsb' (32 * j.val) 32

/-- An operand with bits [32j+31 : 32j] replaced by `v` (20_memory.md R55). -/
def setLimb (x : Operand) (j : Fin 128) (v : Word) : Operand :=
  (x &&& ~~~((BitVec.allOnes 32).setWidth 4096 <<< (32 * j.val))) ||| v.setWidth 4096 <<< (32 * j.val)

/-- What an aligned word of the aperture is (10_state.md R25; 20_memory.md R55, R56). -/
inductive Target where
  | id
  | param
  | ctrl
  | status
  | cmd
  | reserved
  | limb (i : Reg) (j : Fin 128)
  deriving DecidableEq, Repr

/-- The address map (20_memory.md R60) of the aligned offsets below APERTURE. -/
def target (off : Nat) : Target :=
  if off = 0x000 then .id
  else if off = 0x004 then .param
  else if off = 0x008 then .ctrl
  else if off = 0x00C then .status
  else if off = 0x010 then .cmd
  else if off < Config.xBase then .reserved
  else .limb (Fin.ofNat 8 ((off - Config.xBase) / Config.stride))
    (Fin.ofNat 128 ((off - Config.xBase) % Config.stride / 4))

/-- The offset of limb j of Xi: X_BASE + i·STRIDE + 4·j (20_memory.md R55). -/
def limbOffset (i : Reg) (j : Fin 128) : Nat := Config.xBase + i.val * Config.stride + 4 * j.val

/-- An access the engine answers with ERROR: not 32 bits wide, or not aligned (20_memory.md R53). -/
def malformed (off : Nat) (width : Width) : Bool := width != .word || off % 4 != 0

/-- The snapshot of a command's sources (40_command_lifecycle.md R103): the register each field names, X0 where a
command does not use the field. -/
def snapshot (i : Instr) (e : Engine) : Snapshot where
  a := e.reg i.fields.ra
  b := e.reg i.fields.rb
  m := e.reg i.fields.rm
  imm := i.fields.imm
  compat := e.ctrl.mrCompat

end Sys2Proof.Machine
end

