-- ==== Sys2Proof/Machine/Ops.lean ====
section
/-! DEFINITION. The shared operations of the machine: raising an error, accepting, completing and aborting a command, the
resets, the bus response, and the life of a command that every meaning is written over (40_command_lifecycle.md). -/

namespace Sys2Proof.Machine

/-- What a step answers. -/
abbrev Result := Host.Outcome State Fault Refusal

/-- The state with another engine. -/
def State.withEngine (s : State) (e : Engine) : State := { s with engine := e }

/-- The state with STATUS replaced. -/
def State.withStatus (s : State) (st : Status) : State := s.withEngine { s.engine with status := st }

/-- STATUS.BUSY. -/
abbrev State.busy (s : State) : Bool := s.engine.status.busy

/-- The bus gives `r` back to the host access being made (20_memory.md R50). -/
def respond (r : Response) (s : State) : State := { s with response := r }

/-- The engine's counterpart of taking an exception, `raise Error(code)` (60_exceptions.md R210, R212): the outcome is
recorded in STATUS and nothing else changes. `fail(code)` of 40_command_lifecycle.md R104 and `abort()` of R108 are both
this; no vector, no mode and no saved register exist. -/
def raiseError (code : ErrCode) (s : State) : State := s.withStatus (s.engine.status.failed code)

/-- `abort()` (40_command_lifecycle.md R108). -/
def abort (s : State) : State := raiseError .aborted s

/-- OVR is set by a CMD or X-window write while BUSY (20_memory.md R57; 40_command_lifecycle.md R105). -/
def setOvr (s : State) : State := s.withStatus { s.engine.status with ovr := true }

/-- Hardware and soft reset (70_reset_and_hazards.md R240, R241): every register of the engine. The inputs still to come,
the last response and the count of draws are not the engine's and stay (log 7, log 20). -/
def resetEngine (s : State) : State := s.withEngine .reset

/-- The start of every decoded CMD write (40_command_lifecycle.md R101, R102): LASTCMD takes the word and the previous
outcome is cleared. -/
def beginCommand (v : Word) (s : State) : State :=
  s.withEngine { s.engine with lastCmd := v, status := s.engine.status.clearOutcome }

/-- Accept (40_command_lifecycle.md R101, R103): the command and its snapshot are latched and BUSY is set. -/
def accept (i : Instr) (snap : Snapshot) (s : State) : State :=
  s.withEngine { s.engine with cur := ⟨i, snap⟩, status := { s.engine.status with busy := true } }

/-- What `F_op` gives (40_command_lifecycle.md R106): the value for X[RD], or none (NOP), the two verdict flags, and how
many witnesses were drawn (ISPRIME only). -/
structure Completion where
  out : Option Nat
  noinv : Bool
  prime : Bool
  drawn : Nat
  deriving DecidableEq, Repr

/-- A completion that writes `v`, sets no flag and draws nothing. -/
def Completion.value (v : Nat) : Completion := ⟨some v, false, false, 0⟩

/-- The operand registers after a completion's `X[rd] <- out` (40_command_lifecycle.md R106). -/
def Engine.writeOut (e : Engine) (rd : Reg) : Option Nat → Engine
  | none => e
  | some v => e.setReg rd (BitVec.ofNat 4096 v)

/-- The completion step's effect (40_command_lifecycle.md R106): X[rd], NOINV, PRIME, BUSY and DONE. -/
def complete (rd : Reg) (c : Completion) (s : State) : State :=
  let e := s.engine.writeOut rd c.out
  { s with
    engine := { e with status := e.status.completed c.noinv c.prime }
    draws := s.draws + c.drawn }

/-- The witnesses the source would give from here on, one per draw (43_primality.md R186): FREE VALUES, log 6. -/
def State.drawsAhead (s : State) (k : Nat) : Nat := Config.witnessDraw (s.draws + k)

/-- The life of the command `i` (40_command_lifecycle.md R100): its two atomic transitions, one a call.
While the engine is idle, `i` has just been decoded from a CMD write: its check runs on the snapshot, and the command ends
at once in an error or is accepted (R101, R103, R104). While BUSY, `i` is the latched command: it completes from the
latched snapshot (R106). Log 9. -/
def runCommand (i : Instr) (check : Snapshot → Option ErrCode) (f : Snapshot → (Nat → Nat) → Completion)
    (s : State) : Result :=
  if s.busy then .next (complete i.fields.rd (f s.engine.cur.snap s.drawsAhead) s)
  else
    match check (snapshot i s.engine) with
    | some code => .next (raiseError code s)
    | none => .next (accept i (snapshot i s.engine) s)

/-- The check of a command that accepts every operand (R104: NOP, GCD). -/
def noCheck (_ : Snapshot) : Option ErrCode := none

/-- The check of a command that needs a modulus (R104): a zero M is MOD_ZERO. -/
def modulusCheck (snap : Snapshot) : Option ErrCode := if snap.m = 0 then some .modZero else none

end Sys2Proof.Machine
end

