-- ==== Sys2Proof/Machine/GcdInverse.lean ====
section
/-! DEFINITION. GCD and MODINV (41_gcd_inverse.md). -/

namespace Sys2Proof.Machine

/-- R131: `while b ≠ 0: (a, b) := (b, a mod b)`, at most `fuel` times (log 14). -/
def gcdLoop : (fuel a b : Nat) → Nat
  | 0, a, _ => a
  | fuel + 1, a, b => if b = 0 then a else gcdLoop fuel b (a % b)

/-- GCD's value (R131). `b` strictly decreases, so `b` iterations are enough. -/
def gcdValue (a b : Nat) : Nat := gcdLoop b a b

/-- `F_GCD` (R131). -/
def gcdResult (snap : Snapshot) (_ : Nat → Nat) : Completion := .value (gcdValue snap.a.toNat snap.b.toNat)

/-- GCD (R130): every pair of values is accepted. -/
def execGcd (rd ra rb : Reg) (s : State) : Result := runCommand (.gcd rd ra rb) noCheck gcdResult s

/-- R136: the extended Euclidean loop on `(r, r')` and `(t, t')`, at most `fuel` times (log 14); it returns the final
`r` and `t`. -/
def inverseLoop : (fuel r r' : Nat) → (t t' : Int) → Nat × Int
  | 0, r, _, t, _ => (r, t)
  | fuel + 1, r, r', t, t' =>
    if r' = 0 then (r, t)
    else
      let q := r / r'
      inverseLoop fuel r' (r - q * r') t' (t - q * t')

/-- The final `r` and `t` for `a` modulo `m` (R136): the initial pairs are `(m, a)` and `(0, 1)`. `r'` strictly
decreases, so `a + 1` iterations are enough. -/
def euclid (a m : Nat) : Nat × Int := inverseLoop (a + 1) m a 0 1

/-- The inverse of `a` modulo `m`, `t mod m`, or `none` where the final `r > 1` (R136). -/
def inverse (a m : Nat) : Option Nat :=
  if 1 < (euclid a m).1 then none else some ((euclid a m).2 % (m : Int)).toNat

/-- `F_MODINV` (R136): no inverse writes 0 and sets NOINV. -/
def modinvResult (snap : Snapshot) (_ : Nat → Nat) : Completion :=
  match inverse snap.a.toNat snap.m.toNat with
  | none => ⟨some 0, true, false, 0⟩
  | some x => .value x

/-- MODINV (R135). -/
def execModinv (rd ra rm : Reg) (s : State) : Result := runCommand (.modinv rd ra rm) modulusCheck modinvResult s

end Sys2Proof.Machine
end

