-- ==== Sys2Proof/Machine/Modexp.lean ====
section
/-! DEFINITION. MODEXP, MODMUL, MODRED and MONTMUL (42_modexp.md). -/

namespace Sys2Proof.Machine

/-- R151: square and multiply over the exponent's bits, at most `fuel` times (log 14). -/
def modexpLoop (m : Nat) : (fuel result p e : Nat) → Nat
  | 0, result, _, _ => result
  | fuel + 1, result, p, e =>
    if e = 0 then result
    else modexpLoop m fuel (if e % 2 = 1 then result * p % m else result) (p * p % m) (e / 2)

/-- MODEXP's value (R151), from `result = 1 mod m` and `p = base mod m`; an exponent below 2^NBITS has at most NBITS bits. -/
def modexpValue (base e m : Nat) : Nat := modexpLoop m Config.nbits (1 % m) (base % m) e

/-- `F_MODEXP` (R151). -/
def modexpResult (snap : Snapshot) (_ : Nat → Nat) : Completion :=
  .value (modexpValue snap.a.toNat snap.b.toNat snap.m.toNat)

/-- MODEXP (R150). -/
def execModexp (rd ra rb rm : Reg) (s : State) : Result :=
  runCommand (.modexp rd ra rb rm) modulusCheck modexpResult s

/-- `F_MODMUL` (R155): the product is exact and is reduced exactly. -/
def modmulResult (snap : Snapshot) (_ : Nat → Nat) : Completion :=
  .value (snap.a.toNat * snap.b.toNat % snap.m.toNat)

/-- MODMUL (R155). -/
def execModmul (rd ra rb rm : Reg) (s : State) : Result :=
  runCommand (.modmul rd ra rb rm) modulusCheck modmulResult s

/-- `F_MODRED` (R157). -/
def modredResult (snap : Snapshot) (_ : Nat → Nat) : Completion := .value (snap.a.toNat % snap.m.toNat)

/-- MODRED (R157). -/
def execModred (rd ra rm : Reg) (s : State) : Result := runCommand (.modred rd ra rm) modulusCheck modredResult s

/-- The Montgomery radix R = 2^NBITS (R161). -/
def montRadix : Nat := 2 ^ Config.nbits

/-- MONTMUL's value (R161): `(a · b · R⁻¹) mod m`, where R⁻¹ is the inverse of `R mod m`, found by R136's loop (log 15). -/
def montValue (a b m : Nat) : Nat := a * b * (inverse (montRadix % m) m).getD 0 % m

/-- `F_MONTMUL` (R161). -/
def montmulResult (snap : Snapshot) (_ : Nat → Nat) : Completion :=
  .value (montValue snap.a.toNat snap.b.toNat snap.m.toNat)

/-- MONTMUL's check, in order (R160): M = 0 is MOD_ZERO; then M even, A ≥ M or B ≥ M is BADARG. -/
def montmulCheck (snap : Snapshot) : Option ErrCode :=
  if snap.m = 0 then some .modZero
  else if snap.m.toNat % 2 = 0 ∨ snap.m ≤ snap.a ∨ snap.m ≤ snap.b then some .badArg
  else none

/-- MONTMUL (R160). -/
def execMontmul (rd ra rb rm : Reg) (s : State) : Result :=
  runCommand (.montmul rd ra rb rm) montmulCheck montmulResult s

end Sys2Proof.Machine
end

