-- ==== Sys2Proof/Machine/Nop.lean ====
section
/-! DEFINITION. NOP (40_command_lifecycle.md R110). -/

namespace Sys2Proof.Machine

/-- `F_NOP(snap) = (NONE, 0, 0)` (R110). -/
def nopResult (_ : Snapshot) (_ : Nat → Nat) : Completion := ⟨none, false, false, 0⟩

/-- NOP (R110): no check, no X register written; it goes through BUSY like every legal command. -/
def execNop (s : State) : Result := runCommand .nop noCheck nopResult s

end Sys2Proof.Machine
end

