-- ==== Sys2Proof/Machine/Primality.lean ====
section
/-! DEFINITION. MRROUND and ISPRIME (43_primality.md). -/

namespace Sys2Proof.Machine

/-- What one round, or the whole test, says of its candidate (R181). -/
inductive Verdict where
  | composite
  | probablyPrime
  deriving DecidableEq, Repr

/-- `ceil(x / d)`. -/
def ceilDiv (x d : Nat) : Nat := (x + d - 1) / d

/-- R180: `s` grows while floor and ceiling of `x / 2^(s+1)` agree, at most `fuel` times (log 14). -/
def decomposeLoop (x : Nat) : (fuel s : Nat) → Nat
  | 0, s => s
  | fuel + 1, s => if x / 2 ^ (s + 1) = ceilDiv x (2 ^ (s + 1)) then decomposeLoop x fuel (s + 1) else s

/-- `decompose(n)` (R180): `(s, r)` with n − 1 = 2^s · r; a candidate below 2^NBITS needs at most NBITS steps. -/
def decompose (n : Nat) : Nat × Nat :=
  let s := decomposeLoop (n - 1) Config.nbits 0
  (s, (n - 1) / 2 ^ s)

/-- R181's inner loop, with `k` squarings left: it stops at y = n−1, and y = 1 is composite. -/
def squareLoop (n : Nat) : (k y : Nat) → Verdict
  | 0, y => if y = n - 1 then .probablyPrime else .composite
  | k + 1, y =>
    if y = n - 1 then .probablyPrime
    else if y * y % n = 1 then .composite
    else squareLoop n k (y * y % n)

/-- `round(n, w)` (R181). -/
def mrRound (n w : Nat) : Verdict :=
  let y := modexpValue w (decompose n).2 n
  if y = 1 ∨ y = n - 1 then .probablyPrime else squareLoop n ((decompose n).1 - 1) y

/-- The completion a verdict gives (R183, R188): X[RD] = 1 and PRIME = 1, or both 0. -/
def verdictResult (drawn : Nat) : Verdict → Completion
  | .probablyPrime => ⟨some 1, false, true, drawn⟩
  | .composite => ⟨some 0, false, false, drawn⟩

/-- `F_MRROUND` (R183). -/
def mrroundResult (snap : Snapshot) (_ : Nat → Nat) : Completion :=
  verdictResult 0 (mrRound snap.a.toNat snap.b.toNat)

/-- MRROUND's check, in order (R182): n ≤ 3, then w < 2 or w > n − 2, are BADARG. -/
def mrroundCheck (snap : Snapshot) : Option ErrCode :=
  if snap.a.toNat ≤ 3 then some .badArg
  else if snap.b.toNat < 2 ∨ snap.a.toNat - 2 < snap.b.toNat then some .badArg
  else none

/-- MRROUND (R182). -/
def execMrround (rd ra rb : Reg) (s : State) : Result :=
  runCommand (.mrround rd ra rb) mrroundCheck mrroundResult s

/-- `draw_witness(n)` (R186): a free value brought into [2, n−2], for n > 3 (log 6). Every value of the range is some
raw draw's. -/
def witness (n raw : Nat) : Nat := 2 + raw % (n - 3)

/-- R188's loop with `k` witnesses drawn so far and `rounds` rounds left: it stops at the first COMPOSITE. It returns
the verdict and how many witnesses were drawn in all. -/
def primalityLoop (n : Nat) (draw : Nat → Nat) : (rounds k : Nat) → Verdict × Nat
  | 0, k => (.probablyPrime, k)
  | rounds + 1, k =>
    match mrRound n (witness n (draw k)) with
    | .composite => (.composite, k + 1)
    | .probablyPrime => primalityLoop n draw rounds (k + 1)

/-- The number of rounds (R187): ITERS − 1 in compatibility mode, ITERS otherwise. -/
def roundCount (snap : Snapshot) : Nat := if snap.compat then snap.imm - 1 else snap.imm

/-- `is_prime` as R188 runs it: 0 and 1 are not prime, 2 and 3 are, and above 3 the rounds decide. -/
def primality (n rounds : Nat) (draw : Nat → Nat) : Verdict × Nat :=
  if n = 0 ∨ n = 1 then (.composite, 0)
  else if n = 2 ∨ n = 3 then (.probablyPrime, 0)
  else primalityLoop n draw rounds 0

/-- `F_ISPRIME` (R188). -/
def isprimeResult (snap : Snapshot) (draw : Nat → Nat) : Completion :=
  let p := primality snap.a.toNat (roundCount snap) draw
  verdictResult p.2 p.1

/-- ISPRIME's check (R186): ITERS = 0 is BADARG. -/
def isprimeCheck (snap : Snapshot) : Option ErrCode := if snap.imm = 0 then some .badArg else none

/-- ISPRIME (R186). -/
def execIsprime (rd ra : Reg) (iters : Nat) (s : State) : Result :=
  runCommand (.isprime rd ra iters) isprimeCheck isprimeResult s

end Sys2Proof.Machine
end

