-- ==== Sys2Proof/Machine/Dispatch.lean ====
section
/-! DEFINITION. The meaning of each command, one arm per row of the opcode map (30_encoding.md R85). -/

namespace Sys2Proof.Machine

/-- What the engine does with a decoded command (40_command_lifecycle.md R100): its submission while idle, its completion
while BUSY (log 9). -/
def exec (i : Instr) (s : State) : Host.Outcome State Fault Refusal :=
  match i with
  | .nop => Sys2Proof.Machine.execNop s
  | .gcd rd ra rb => Sys2Proof.Machine.execGcd rd ra rb s
  | .modinv rd ra rm => Sys2Proof.Machine.execModinv rd ra rm s
  | .modexp rd ra rb rm => Sys2Proof.Machine.execModexp rd ra rb rm s
  | .modmul rd ra rb rm => Sys2Proof.Machine.execModmul rd ra rb rm s
  | .modred rd ra rm => Sys2Proof.Machine.execModred rd ra rm s
  | .montmul rd ra rb rm => Sys2Proof.Machine.execMontmul rd ra rb rm s
  | .mrround rd ra rb => Sys2Proof.Machine.execMrround rd ra rb s
  | .isprime rd ra iters => Sys2Proof.Machine.execIsprime rd ra iters s

end Sys2Proof.Machine
end

