-- ==== Sys2Proof/Machine/Bus.lean ====
section
/-! DEFINITION. What each input of the machine does: the host's bus reads and writes (20_memory.md; 10_state.md R27 to
R34), the submission of a command word (40_command_lifecycle.md R101), the engine's completion step (R106), and hardware
reset (70_reset_and_hazards.md R240). -/

namespace Sys2Proof.Machine

/-- The data of a read of an aligned word (10_state.md R25, R27 to R30, R33, R34; 20_memory.md R55 to R57). `free` is the
word an X-window read returns while BUSY. -/
def readWord (e : Engine) (free : Word) : Target → Word
  | .id => Config.idWord
  | .param => Config.paramWord
  | .ctrl => e.ctrl.word
  | .status => e.status.word
  | .cmd => e.lastCmd
  | .reserved => 0
  | .limb i j => if e.status.busy then free else limb (e.reg i) j

/-- How many free values a read of an aligned word draws: one for an X-window word while BUSY (20_memory.md R57). -/
def readDraws (e : Engine) : Target → Nat
  | .limb _ _ => if e.status.busy then 1 else 0
  | _ => 0

/-- A host read (20_memory.md R52, R53, R56): no read changes the engine (R59). -/
def busRead (off : Nat) (width : Width) (s : State) : Result :=
  if Config.aperture ≤ off then .fault (.outsideAperture off)
  else if malformed off width then .next (respond .busError s)
  else
    .next { s with
      response := .data (readWord s.engine (Config.busyReadWord s.draws) (target off))
      draws := s.draws + readDraws s.engine (target off) }

/-- A write of `v` to CTRL (10_state.md R27): SRST wins over every other bit; ABORT acts only while BUSY. -/
def writeCtrl (v : Word) (s : State) : State :=
  if v[3] then resetEngine s
  else
    let s' := s.withEngine { s.engine with ctrl := .ofWord v }
    if v[2] && s.busy then abort s' else s'

/-- A write of `v` to STATUS (10_state.md R29). -/
def writeStatus (v : Word) (s : State) : State := s.withStatus (s.engine.status.w1c v)

/-- A write of `v` to limb j of Xi (20_memory.md R55); while BUSY it is ignored and sets OVR (R57). -/
def writeLimb (i : Reg) (j : Fin 128) (v : Word) (s : State) : State :=
  if s.busy then setOvr s else s.withEngine (s.engine.setReg i (setLimb (s.engine.reg i) j v))

/-- A write of `v` to CMD (40_command_lifecycle.md R101): ignored while BUSY but for OVR (R105); otherwise the word is
recorded and decoded, an illegal word ends at once in ILLEGAL_CMD (R104), and a legal one is the command's to run. -/
def submitWord (v : Word) (s : State) : Result :=
  if s.busy then .next (setOvr s)
  else
    match decode v with
    | none => .next (raiseError .illegalCmd (beginCommand v s))
    | some i => exec i (beginCommand v s)

/-- A write of `v` to an aligned word of the aperture; ID, PARAM and the reserved words ignore it (20_memory.md R56). -/
def writeWord (v : Word) (s : State) : Target → Result
  | .id => .next s
  | .param => .next s
  | .ctrl => .next (writeCtrl v s)
  | .status => .next (writeStatus v s)
  | .cmd => submitWord v s
  | .reserved => .next s
  | .limb i j => .next (writeLimb i j v s)

/-- A host write (20_memory.md R52, R53, R56). -/
def busWrite (off : Nat) (width : Width) (v : Word) (s : State) : Result :=
  if Config.aperture ≤ off then .fault (.outsideAperture off)
  else if malformed off width then .next (respond .busError s)
  else writeWord v (respond .okay s) (target off)

/-- The engine's only step, completion of the latched command, enabled iff BUSY = 1 (40_command_lifecycle.md R106;
10_state.md R20). Where it is not enabled, nothing happens (log 3). -/
def engineStep (s : State) : Result := if s.busy then exec s.engine.cur.cmd s else .next s

/-- What one input does. -/
def runEvent (ev : Event) (s : State) : Result :=
  match ev with
  | .read off width => busRead off width s
  | .write off width v => busWrite off width v s
  | .complete => engineStep s
  | .reset => .next (resetEngine s)

/-- The offset of CMD (10_state.md R25). -/
def cmdOffset : Nat := 0x010

end Sys2Proof.Machine
end

