-- ==== Sys2Proof/Machine/Step.lean ====
section
/-! DEFINITION. One step of the machine, and how the host of this package places a command word before it. -/

namespace Sys2Proof.Machine

/-- One step: the oldest input of the schedule acts (20_memory.md R62). When no input is left, a running command completes
(40_command_lifecycle.md R107) and an idle engine stays as it is (log 2). -/
def step (s : State) : Host.Outcome State Fault Refusal :=
  match s.schedule with
  | [] => engineStep s
  | ev :: rest => runEvent ev { s with schedule := rest }

/-- `s` with the table word `w` as the very next CMD write, to an idle engine, which would otherwise ignore it (log 13). -/
def State.withFetchWord (s : State) (nbits w : Nat) : State :=
  { s with
    engine := { s.engine with status := { s.engine.status with busy := false } }
    schedule := .write cmdOffset .word (BitVec.ofNat 32 (w % 2 ^ nbits)) :: s.schedule }

end Sys2Proof.Machine
end

