-- ==== Sys2Proof/Machine/HostProgram.lean ====
section
/-! DEFINITION. The host's notation for its programs, as inputs of the machine (30_encoding.md R96), and the assembler of
the command syntax (R93 to R95). The host's own control flow is not the engine's (10_state.md R24; 40_command_lifecycle.md
R111). -/

namespace Sys2Proof.Machine

/-- `W32 off, v` (R96). -/
def w32 (off : Nat) (v : Word) : Event := .write off .word v

/-- `R32 off` (R96). -/
def r32 (off : Nat) : Event := .read off .word

/-- `WRX xi, N` (R96): limb 0 first. -/
def wrx (i : Reg) (n : Operand) : List Event :=
  (List.finRange 128).map fun j => w32 (limbOffset i j) (limb n j)

/-- The reads of `RDX xi` (R96), limb 0 first. -/
def rdx (i : Reg) : List Event := (List.finRange 128).map fun j => r32 (limbOffset i j)

/-- The value `RDX` assembles from its words, limb 0 least significant (R96; 20_memory.md R54). -/
def valueOfLimbs : List Word → Nat
  | [] => 0
  | w :: ws => w.toNat + 2 ^ Config.limbBits * valueOfLimbs ws

/-- `CMD <assembly>` (R96). -/
def cmd (i : Instr) : Event := w32 cmdOffset (encode i)

/-- `WAITDONE` (R96) in the schedule where the completion comes before the first poll, which then sees DONE (log 21). -/
def waitDone : List Event := [.complete, r32 0x00C]

/-- `cs` without the spaces at its front. -/
def skipSpaces : List Char → List Char
  | [] => []
  | c :: cs => if c = ' ' then skipSpaces cs else c :: cs

/-- `cs` without the spaces at either end. -/
def trim (cs : List Char) : List Char := (skipSpaces (skipSpaces cs).reverse).reverse

/-- The characters up to the first space, and the rest. -/
def splitSpace : List Char → List Char × List Char
  | [] => ([], [])
  | c :: cs => if c = ' ' then ([], cs) else (c :: (splitSpace cs).1, (splitSpace cs).2)

/-- The pieces between commas (R93: "Operands are separated by commas"). -/
def splitCommas : List Char → List (List Char)
  | [] => [[]]
  | c :: cs =>
    match c, splitCommas cs with
    | ',', ps => [] :: ps
    | c, p :: ps => (c :: p) :: ps
    | c, [] => [[c]]

/-- The value of a digit in a base up to 16. -/
def digit (base : Nat) (c : Char) : Option Nat :=
  let n := c.toUpper.toNat
  let d := if 48 ≤ n ∧ n ≤ 57 then some (n - 48) else if 65 ≤ n ∧ n ≤ 70 then some (n - 55) else none
  d.filter (· < base)

/-- The value of digits after `acc`, most significant first. -/
def digitsFrom (base : Nat) : (acc : Nat) → List Char → Option Nat
  | acc, [] => some acc
  | acc, c :: cs => (digit base c).bind fun d => digitsFrom base (acc * base + d) cs

/-- A number of at least one digit. -/
def number (base : Nat) (cs : List Char) : Option Nat := if cs = [] then none else digitsFrom base 0 cs

/-- An operand of the assembly syntax: a register (R94) or an immediate (R93). -/
inductive AsmOperand where
  | reg (r : Reg)
  | imm (n : Nat)
  deriving DecidableEq, Repr

/-- `x0` to `x7` or `X0` to `X7` (R94); `#n`, n decimal or `0x` hexadecimal (R93). -/
def asmOperand : List Char → Option AsmOperand
  | ['x', c] => (digit 8 c).map fun d => .reg (Fin.ofNat 8 d)
  | ['X', c] => (digit 8 c).map fun d => .reg (Fin.ofNat 8 d)
  | '#' :: '0' :: 'x' :: cs => (number 16 cs).map .imm
  | '#' :: cs => (number 10 cs).map .imm
  | _ => none

/-- The command a mnemonic and its operands spell: the commands (R93) and the pseudo-commands (R95). -/
def asmCommand : String → List AsmOperand → Option Instr
  | "NOP", [] => some .nop
  | "GCD", [.reg rd, .reg ra, .reg rb] => some (.gcd rd ra rb)
  | "MODINV", [.reg rd, .reg ra, .reg rm] => some (.modinv rd ra rm)
  | "MODEXP", [.reg rd, .reg ra, .reg rb, .reg rm] => some (.modexp rd ra rb rm)
  | "MODMUL", [.reg rd, .reg ra, .reg rb, .reg rm] => some (.modmul rd ra rb rm)
  | "MODRED", [.reg rd, .reg ra, .reg rm] => some (.modred rd ra rm)
  | "MONTMUL", [.reg rd, .reg ra, .reg rb, .reg rm] => some (.montmul rd ra rb rm)
  | "MRROUND", [.reg rd, .reg ra, .reg rb] => some (.mrround rd ra rb)
  | "ISPRIME", [.reg rd, .reg ra, .imm iters] => some (.isprime rd ra iters)
  | "MODSQR", [.reg rd, .reg ra, .reg rm] => some (modsqr rd ra rm)
  | "ENCBLK", [.reg rd, .reg ra, .reg rb, .reg rm] => some (encblk rd ra rb rm)
  | "DECBLK", [.reg rd, .reg ra, .reg rb, .reg rm] => some (decblk rd ra rb rm)
  | "SIGN", [.reg rd, .reg ra, .reg rb, .reg rm] => some (sign rd ra rb rm)
  | "VERSTEP", [.reg rd, .reg ra, .reg rb, .reg rm] => some (verstep rd ra rb rm)
  | "TOMONT", [.reg rd, .reg ra, .reg rb, .reg rm] => some (tomont rd ra rb rm)
  | "FROMMONT", [.reg rd, .reg ra, .reg rb, .reg rm] => some (frommont rd ra rb rm)
  | _, _ => none

/-- The operands of a command's text: none, or pieces between commas. -/
def asmOperands (cs : List Char) : Option (List AsmOperand) :=
  if trim cs = [] then some [] else (splitCommas cs).mapM fun p => asmOperand (trim p)

/-- The assembler (R93): one command's text to its word; mnemonics are case-insensitive, and a count above ITERS_MAX is
refused (log 22 on spaces). -/
def assemble (text : List Char) : Option Word :=
  let p := splitSpace (trim text)
  (asmOperands p.2).bind fun ops =>
    (asmCommand (String.ofList (p.1.map Char.toUpper)) ops).bind fun i =>
      if i.wellFormedWith Config.hasMont then some (encode i) else none

end Sys2Proof.Machine
end

