-- ==== Sys2Proof/Safety.lean ====
section
/-! DEFINITION. What claims about the machine are stated in: each command's check and value as one table, the invariant of
the engine, when a command is finished, and which runs are safe. -/

namespace Sys2Proof.Machine

/-- Each command's check at accept (40_command_lifecycle.md R104). -/
def checkOf : Instr → Snapshot → Option ErrCode
  | .nop => noCheck
  | .gcd _ _ _ => noCheck
  | .modinv _ _ _ => modulusCheck
  | .modexp _ _ _ _ => modulusCheck
  | .modmul _ _ _ _ => modulusCheck
  | .modred _ _ _ => modulusCheck
  | .montmul _ _ _ _ => montmulCheck
  | .mrround _ _ _ => mrroundCheck
  | .isprime _ _ _ => isprimeCheck

/-- Each command's `F_op` (40_command_lifecycle.md R106). -/
def resultOf : Instr → Snapshot → (Nat → Nat) → Completion
  | .nop => nopResult
  | .gcd _ _ _ => gcdResult
  | .modinv _ _ _ => modinvResult
  | .modexp _ _ _ _ => modexpResult
  | .modmul _ _ _ _ => modmulResult
  | .modred _ _ _ => modredResult
  | .montmul _ _ _ _ => montmulResult
  | .mrround _ _ _ => mrroundResult
  | .isprime _ _ _ => isprimeResult

/-- The fields of STATUS agree with each other: while BUSY no outcome stands (10_state.md R29; 40_command_lifecycle.md R102,
R108), ERR and ERRCODE stand together (10_state.md R28, R29), an error has no verdict (60_exceptions.md R212), and no
command sets both NOINV and PRIME. -/
abbrev Status.Consistent (st : Status) : Prop :=
  (st.busy = true → st.done = false ∧ st.err = false ∧ st.noinv = false ∧ st.prime = false) ∧
  (st.err = true ↔ st.errcode ≠ .none) ∧
  (st.err = true → st.noinv = false ∧ st.prime = false) ∧
  (st.noinv && st.prime) = false

/-- The latched command is the one LASTCMD spells, and its snapshot passed its check (40_command_lifecycle.md R101, R103). -/
abbrev Engine.LatchedAccepted (e : Engine) : Prop :=
  decode e.lastCmd = some e.cur.cmd ∧ e.cur.snap.imm = e.cur.cmd.fields.imm ∧ checkOf e.cur.cmd e.cur.snap = none

/-- The invariant of the engine. -/
abbrev Engine.Inv (e : Engine) : Prop :=
  e.status.Consistent ∧ (e.status.busy = true → e.LatchedAccepted)

/-- A submitted command is finished (40_command_lifecycle.md R112). -/
abbrev Finished (s : State) : Prop := s.engine.status.busy = false ∧ s.engine.status.done = true

/-- A finished command succeeded (40_command_lifecycle.md R112). -/
abbrev Succeeded (s : State) : Prop := Finished s ∧ s.engine.status.err = false

/-- The command that the first step from `s` submits is finished at step `n`, in the state `t`: the first state after that
write that is finished (40_command_lifecycle.md R112). -/
abbrev FinishesAt (s : State) (n : Nat) (t : State) : Prop :=
  1 ≤ n ∧ Host.Core.run core n s = .next t ∧ Finished t ∧
    ∀ k u, 1 ≤ k → k < n → Host.Core.run core k s = .next u → ¬ Finished u

/-- An input that is a step of the host: an access (20_memory.md R52). A completion point is the engine's step and a reset
is the wire's (10_state.md R20; 70_reset_and_hazards.md R240). -/
def Event.hostStep : Event → Bool
  | .read _ _ => true
  | .write _ _ _ => true
  | .complete => false
  | .reset => false

/-- A host program is finished: its last host step has been taken and BUSY = 0 (40_command_lifecycle.md R112). Completion
points and resets still to come are no part of it. -/
abbrev ProgramFinished (s : State) : Prop :=
  s.schedule.any Event.hostStep = false ∧ s.engine.status.busy = false

/-- An input that reaches the engine: every one but a host access beyond the aperture (20_memory.md R52, R56). -/
def Event.reaches : Event → Bool
  | .read off _ => decide (off < Config.aperture)
  | .write off _ _ => decide (off < Config.aperture)
  | .complete => true
  | .reset => true

/-- A safe state: the engine's invariant holds and every input to come reaches the engine. -/
abbrev Safe (s : State) : Prop := s.engine.Inv ∧ s.schedule.all Event.reaches = true

/-- A host access that leaves a running command running: any access of the aperture but a CTRL write with ABORT or SRST
set (40_command_lifecycle.md R108; 70_reset_and_hazards.md R241). -/
def Event.leavesRunning : Event → Bool
  | .read off _ => decide (off < Config.aperture)
  | .write off width v =>
    decide (off < Config.aperture) && !(off == 0x008 && width == .word && (v[2] || v[3]))
  | .complete => false
  | .reset => false

end Sys2Proof.Machine
end

