-- ==== Sys2Proof/Certificates/Slice0/Obligations.lean ====
section
/-! DEFINITION. What is claimed of the engine, one statement a definition; each docstring names the rule of spec/ it
formalises. Nothing is proved here. -/

open Sys2Proof Sys2Proof.Machine

/-! ### The command word -/

/-- R92: the encoder is the bitwise `or` of the shifted fields, decoding an encoded legal command gives it back, and a
word that decodes is the encoding of what it decodes to. -/
def Obligations.DecoderAndEncoderAreInverse : Prop :=
  (∀ i : Instr, i.WellFormed →
    (encode i).toNat = i.fields.op.toNat ||| i.fields.rd.val <<< 6 ||| i.fields.ra.val <<< 9 |||
      i.fields.rb.val <<< 12 ||| i.fields.rm.val <<< 15 ||| i.fields.imm <<< 20) ∧
  (∀ i : Instr, i.WellFormed → decode (encode i) = some i) ∧
  (∀ (v : Word) (i : Instr), decode v = some i → i.WellFormed ∧ encode i = v)

/-- R85's last sentence: at most one row of the opcode map matches any word. -/
def Obligations.OpcodeRowsAreDisjoint : Prop :=
  ∀ (v : Word), ∀ r₁ ∈ rows true, ∀ r₂ ∈ rows true, r₁.hits v = true → r₂.hits v = true → r₁ = r₂

/-- R87: a word that matches no row is illegal, among them every word with OP 0x07 or 0x0A to 0x3F and every word with a
nonzero reserved bit or unused field (one that no legal command's encoding is). Written to CMD while BUSY = 0 it ends at
once with ERR, ILLEGAL_CMD and DONE, and no X register is written. -/
def Obligations.IllegalWordsAreRejected : Prop :=
  (∀ v : Word, decode v = none ↔ ∀ r ∈ rows Config.hasMont, r.hits v = false) ∧
  (∀ v : Word, decode v = none ↔ ¬ ∃ i : Instr, i.WellFormed ∧ encode i = v) ∧
  (∀ v : Word, opField v = 0x07 ∨ 0x0A ≤ opField v ∨ v.extractLsb' 18 2 ≠ 0 → decode v = none) ∧
  (∀ (s : State) (v : Word) (rest : List Event), s.engine.status.busy = false →
    s.schedule = .write 0x010 .word v :: rest → decode v = none →
    step s = .next { s with
      schedule := rest
      response := .okay
      engine := { s.engine with
        lastCmd := v
        status := ⟨false, true, true, false, false, s.engine.status.ovr, .illegalCmd⟩ } })

/-- R88: without the option the MONTMUL row is absent, OP 0x06 is illegal, and every other word decodes as with it; with it,
as in this engine, MONTMUL's words are legal. -/
def Obligations.MontmulNeedsItsOption : Prop :=
  rows false = (rows true).erase montmulRow ∧
  (∀ v : Word, opField v = 0x06 → decodeWith false v = none) ∧
  (∀ v : Word, opField v ≠ 0x06 → decodeWith false v = decodeWith true v) ∧
  (∀ rd ra rb rm : Reg, decode (encode (.montmul rd ra rb rm)) = some (.montmul rd ra rb rm))

/-- Words written out from R81's fields and R93's worked encodings decode to the commands they stand for. -/
def Obligations.WorkedEncodingsDecode : Prop :=
  decode 0x00000000 = some .nop ∧
  decode 0x000110C3 = some (.modexp 3 0 1 2) ∧
  decode 0x00008082 = some (.modinv 2 0 1) ∧
  decode 0x03200049 = some (.isprime 1 0 50) ∧
  decode 0x00002301 = some (.gcd 4 1 2) ∧
  decode 0x00001088 = some (.mrround 2 0 1)

/-! ### Reset -/

/-- R240: after `rst`, from any state and with any command running, every register has the value of the table, the
engine is idle, ID and PARAM read as their constants, and `irq` is 0. -/
def Obligations.HardwareResetValues : Prop :=
  ∀ (s : State) (rest : List Event), s.schedule = .reset :: rest →
    ∃ t, step s = .next t ∧ t.schedule = rest ∧ (∀ r : Reg, t.engine.reg r = 0) ∧
      t.engine.ctrl.ie = false ∧ t.engine.ctrl.mrCompat = false ∧
      t.engine.status.busy = false ∧ t.engine.status.done = false ∧ t.engine.status.err = false ∧
      t.engine.status.noinv = false ∧ t.engine.status.prime = false ∧ t.engine.status.ovr = false ∧
      t.engine.status.errcode = .none ∧ t.engine.lastCmd = 0 ∧ t.engine.irq = false ∧
      readWord t.engine 0 .id = 0x4D455831 ∧ readWord t.engine 0 .param = 0x01080080

/-- R241: a CTRL write with bit 3 set, whatever its other bits, leaves the engine that `rst` leaves, but for the latched
command, which nothing reads while BUSY = 0: every X register, IE and MR_COMPAT are 0 within that write. -/
def Obligations.SoftResetIsHardwareReset : Prop :=
  ∀ (s : State) (v : Word) (rest : List Event), v[3] = true → s.schedule = .write 0x008 .word v :: rest →
    ∃ t u, step s = .next t ∧ step { s with schedule := .reset :: rest } = .next u ∧
      t.engine = { u.engine with cur := t.engine.cur } ∧ t.schedule = rest ∧ t.response = .okay ∧
      (∀ r : Reg, t.engine.reg r = 0) ∧ t.engine.ctrl = ⟨false, false⟩ ∧ t.engine.status.busy = false

/-- R242: a reset of either kind while BUSY drops the command: whatever completion points and reads follow, X[RD] is not
written (every X stays 0), and DONE, ERR and ABORTED are not set. ABORTED comes only from CTRL.ABORT while BUSY. -/
def Obligations.ResetWhileBusyDropsTheCommand : Prop :=
  (∀ (s : State) (ev : Event) (evs rest : List Event), s.engine.status.busy = true →
    (ev = .reset ∨ ∃ v : Word, v[3] = true ∧ ev = .write 0x008 .word v) →
    (∀ e ∈ evs, e = .complete ∨ ∃ off width, off < 0x2000 ∧ e = .read off width) →
    s.schedule = ev :: evs ++ rest →
    ∃ t, Host.Core.run core (evs.length + 1) s = .next t ∧ t.schedule = rest ∧ (∀ r : Reg, t.engine.reg r = 0) ∧
      t.engine.status.busy = false ∧ t.engine.status.done = false ∧ t.engine.status.err = false ∧
      t.engine.status.errcode = .none) ∧
  (∀ s t : State, step s = .next t → s.engine.status.errcode ≠ .aborted → t.engine.status.errcode = .aborted →
    s.engine.status.busy = true ∧
      ∃ v rest, v[2] = true ∧ v[3] = false ∧ s.schedule = .write 0x008 .word v :: rest)

/-! ### The bus -/

/-- R53: an access of the aperture that is not 32 bits wide and aligned gets ERROR, no data, and changes nothing else. -/
def Obligations.MalformedAccessGetsError : Prop :=
  ∀ (s : State) (off : Nat) (width : Width) (v : Word) (rest : List Event), off < 0x2000 →
    (width ≠ .word ∨ off % 4 ≠ 0) → (s.schedule = .read off width :: rest ∨ s.schedule = .write off width v :: rest) →
    step s = .next { s with schedule := rest, response := .busError }

/-- R55: while idle, the word at 0x1000 + 0x200·i + 4·j reads as bits [32j+31 : 32j] of X[i], and a write replaces just
those bits: the limb reads as what was written, and every other limb of every register, and everything else, is as before. -/
def Obligations.WindowReadsAndWritesLimbs : Prop :=
  ∀ (s : State) (i : Reg) (j : Fin 128) (rest : List Event), s.engine.status.busy = false →
    (s.schedule = .read (0x1000 + 0x200 * i.val + 4 * j.val) .word :: rest →
      step s = .next { s with schedule := rest, response := .data ((s.engine.reg i).extractLsb' (32 * j.val) 32) }) ∧
    (∀ v : Word, s.schedule = .write (0x1000 + 0x200 * i.val + 4 * j.val) .word v :: rest →
      ∃ t, step s = .next t ∧
        (∀ (i' : Reg) (j' : Fin 128), (t.engine.reg i').extractLsb' (32 * j'.val) 32 =
          if i' = i ∧ j' = j then v else (s.engine.reg i').extractLsb' (32 * j'.val) 32) ∧
        t = { s with schedule := rest, response := .okay, engine := { s.engine with x := t.engine.x } })

/-- R96 and R54: `WRX xi, N` on the idle engine, 128 writes with limb 0 first, leaves X[i] = N and nothing else of the engine
changed; and the 128 limbs of a value, limb 0 least significant, assemble to that value, as `RDX` does. -/
def Obligations.OperandLoadAndReadBack : Prop :=
  (∀ (i : Reg) (n : Operand) (s : State) (rest : List Event), s.engine.status.busy = false →
    s.schedule = wrx i n ++ rest →
    Host.Core.run core 128 s = .next { s with
      schedule := rest, response := .okay, engine := { s.engine with x := s.engine.x.set i.val n } }) ∧
  (∀ n : Operand, valueOfLimbs ((List.finRange 128).map fun j => n.extractLsb' (32 * j.val) 32) = n.toNat)

/-- R57: while BUSY a window write changes no X register and sets OVR, and a window read returns some word and changes
nothing of the engine. Which word is left open: the model draws it (log 5). -/
def Obligations.WindowIsClosedWhileBusy : Prop :=
  ∀ (s : State) (off : Nat) (rest : List Event), s.engine.status.busy = true → 0x1000 ≤ off → off < 0x2000 → off % 4 = 0 →
    (∀ v : Word, s.schedule = .write off .word v :: rest →
      step s = .next { s with
        schedule := rest
        response := .okay
        engine := { s.engine with status := { s.engine.status with ovr := true } } }) ∧
    (s.schedule = .read off .word :: rest →
      ∃ w d, step s = .next { s with schedule := rest, response := .data w, draws := d })

/-- R56: the offsets from 0x014 up to the window read as 0 and ignore writes, with OKAY; so do the reserved bits of CTRL
and STATUS; ID and PARAM ignore writes; and an offset at or beyond APERTURE is not decoded, where the model stops (log 10). -/
def Obligations.ReservedSpaceIsReadZeroWriteIgnored : Prop :=
  (∀ (s : State) (off : Nat) (rest : List Event), 0x014 ≤ off → off < 0x1000 → off % 4 = 0 →
    (s.schedule = .read off .word :: rest → step s = .next { s with schedule := rest, response := .data 0 }) ∧
    (∀ v : Word, s.schedule = .write off .word v :: rest →
      step s = .next { s with schedule := rest, response := .okay })) ∧
  (∀ (s : State) (off : Nat) (v : Word) (rest : List Event), off = 0x000 ∨ off = 0x004 →
    s.schedule = .write off .word v :: rest → step s = .next { s with schedule := rest, response := .okay }) ∧
  (∀ e : Engine, e.ctrl.word &&& 0xFFFFFFF0 = 0 ∧ e.status.word &&& 0xFFFFF0C0 = 0 ∧ Config.paramWord &&& 0xFE000000 = 0) ∧
  (∀ (s : State) (v : Word) (rest : List Event),
    step { s with schedule := .write 0x008 .word v :: rest } =
      step { s with schedule := .write 0x008 .word (v &&& 0x0000000F) :: rest } ∧
    step { s with schedule := .write 0x00C .word v :: rest } =
      step { s with schedule := .write 0x00C .word (v &&& 0x00000FFF &&& ~~~0x000000C0) :: rest }) ∧
  (∀ (s : State) (off : Nat) (width : Width) (v : Word) (rest : List Event), 0x2000 ≤ off →
    (s.schedule = .read off width :: rest ∨ s.schedule = .write off width v :: rest) →
    step s = .fault (.outsideAperture off))

/-- R33 and R34: ID and PARAM read as their constants in every state, BUSY or not, and writes to them change nothing. PARAM
reports NLIMBS, NREGS and HAS_MONT at their places, and 0 above. -/
def Obligations.IdAndParamAreConstant : Prop :=
  (∀ (s : State) (rest : List Event),
    (s.schedule = .read 0x000 .word :: rest → step s = .next { s with schedule := rest, response := .data 0x4D455831 }) ∧
    (s.schedule = .read 0x004 .word :: rest → step s = .next { s with schedule := rest, response := .data 0x01080080 }) ∧
    (∀ v : Word, (s.schedule = .write 0x000 .word v :: rest ∨ s.schedule = .write 0x004 .word v :: rest) →
      step s = .next { s with schedule := rest, response := .okay })) ∧
  ((0x01080080 : Word).extractLsb' 0 16).toNat = Config.nlimbs ∧
  ((0x01080080 : Word).extractLsb' 16 8).toNat = Config.nregs ∧
  (0x01080080 : Word)[24] = Config.hasMont ∧ (0x01080080 : Word).extractLsb' 25 7 = 0

/-- R59's first point: no read of any offset or width changes the engine, and every read of the aperture is answered. -/
def Obligations.ReadsHaveNoSideEffect : Prop :=
  ∀ (s : State) (off : Nat) (width : Width) (rest : List Event), s.schedule = .read off width :: rest → off < 0x2000 →
    ∃ r d, step s = .next { s with schedule := rest, response := r, draws := d } ∧ r ≠ .okay ∧
      (width = .word → off % 4 = 0 → ∃ w, r = .data w)

/-- R27: a CTRL write. SRST wins over every other bit and is the soft reset; otherwise IE and MR_COMPAT are written, and ABORT acts only while
BUSY. A CTRL read gives MR_COMPAT and IE, and 0 elsewhere. -/
def Obligations.CtrlWriteAndRead : Prop :=
  ∀ (s : State) (rest : List Event),
    (∀ v : Word, s.schedule = .write 0x008 .word v :: rest →
      (v[3] = true → ∃ c, step s = .next { s with
        schedule := rest, response := .okay, engine := { State.reset.engine with cur := c } }) ∧
      (v[3] = false → ¬ (v[2] = true ∧ s.engine.status.busy = true) →
        step s = .next { s with
          schedule := rest, response := .okay, engine := { s.engine with ctrl := ⟨v[0], v[1]⟩ } }) ∧
      (v[3] = false → v[2] = true → s.engine.status.busy = true →
        step s = .next { s with
          schedule := rest
          response := .okay
          engine := { s.engine with
            ctrl := ⟨v[0], v[1]⟩
            status := { s.engine.status with busy := false, done := true, err := true, errcode := .aborted } } })) ∧
    (s.schedule = .read 0x008 .word :: rest →
      step s = .next { s with
        schedule := rest
        response := .data (BitVec.ofNat 32 (2 * s.engine.ctrl.mrCompat.toNat + s.engine.ctrl.ie.toNat)) })

/-- R29: a STATUS write clears DONE, ERR with ERRCODE, and OVR where it has a 1, and nothing else; while BUSY only OVR can
change. A STATUS read gives every field at the place R28 gives it. -/
def Obligations.StatusWriteAndRead : Prop :=
  ∀ (s : State) (rest : List Event),
    (∀ v : Word, s.schedule = .write 0x00C .word v :: rest →
      step s = .next { s with
        schedule := rest
        response := .okay
        engine := { s.engine with
          status := { s.engine.status with
            done := if v[1] then false else s.engine.status.done
            err := if v[2] then false else s.engine.status.err
            errcode := if v[2] then .none else s.engine.status.errcode
            ovr := if v[5] then false else s.engine.status.ovr } } }) ∧
    (∀ v : Word, s.engine.Inv → s.engine.status.busy = true → s.schedule = .write 0x00C .word v :: rest →
      step s = .next { s with
        schedule := rest
        response := .okay
        engine := { s.engine with
          status := { s.engine.status with ovr := if v[5] then false else s.engine.status.ovr } } }) ∧
    (s.schedule = .read 0x00C .word :: rest →
      ∃ w : Word, step s = .next { s with schedule := rest, response := .data w } ∧
        w.toNat = s.engine.status.busy.toNat + 2 * s.engine.status.done.toNat + 4 * s.engine.status.err.toNat +
          8 * s.engine.status.noinv.toNat + 16 * s.engine.status.prime.toNat + 32 * s.engine.status.ovr.toNat +
          256 * s.engine.status.errcode.code.toNat)

/-- R30: LASTCMD takes every word written to CMD while idle, legal or not, and none written while BUSY; CMD reads as
LASTCMD; it is 0 after reset. -/
def Obligations.CmdReadsTheLastDecodedWord : Prop :=
  (∀ (s : State) (v : Word) (rest : List Event), s.schedule = .write 0x010 .word v :: rest →
    ∃ t, step s = .next t ∧ t.engine.lastCmd = if s.engine.status.busy then s.engine.lastCmd else v) ∧
  (∀ (s : State) (rest : List Event), s.schedule = .read 0x010 .word :: rest →
    step s = .next { s with schedule := rest, response := .data s.engine.lastCmd }) ∧
  State.reset.engine.lastCmd = 0

/-! ### Submission -/

/-- R105: a CMD write while BUSY sets OVR and changes nothing else of the engine, `irq` included. -/
def Obligations.CmdWriteWhileBusyOnlySetsOvr : Prop :=
  ∀ (s : State) (v : Word) (rest : List Event), s.engine.status.busy = true → s.schedule = .write 0x010 .word v :: rest →
    ∃ t, step s = .next t ∧
      t = { s with
        schedule := rest
        response := .okay
        engine := { s.engine with status := { s.engine.status with ovr := true } } } ∧
      t.engine.irq = s.engine.irq

/-- R101, and the engine's step of R106: a step runs the decoded command. A CMD write to the idle engine records its word,
clears the outcome and then does what `exec` does with the command the word decodes to; and where the completion step comes,
at a completion point or when no input is left, a step is `exec` of the latched command. -/
def Obligations.StepRunsTheDecodedCommand : Prop :=
  (∀ (s : State) (v : Word) (i : Instr) (rest : List Event), s.engine.status.busy = false →
    s.schedule = .write 0x010 .word v :: rest → decode v = some i →
    step s = exec i { s with
      schedule := rest
      response := .okay
      engine := { s.engine with
        lastCmd := v
        status := { s.engine.status with
          done := false, err := false, errcode := .none, noinv := false, prime := false } } }) ∧
  (∀ (s : State) (rest : List Event), s.engine.status.busy = true → s.schedule = .complete :: rest →
    step s = exec s.engine.cur.cmd { s with schedule := rest }) ∧
  (∀ s : State, s.engine.status.busy = true → s.schedule = [] → step s = exec s.engine.cur.cmd s)

/-- R101 with R104's table and order: a CMD write of any word in any state. While BUSY it only sets OVR. While idle it ends at
once in the first error that applies to the word or to the values of the registers it names, or the command is accepted:
its sources and MR_COMPAT are captured and BUSY is set. -/
def Obligations.SubmissionChecksThenAccepts : Prop :=
  ∀ (s : State) (v : Word) (rest : List Event), s.schedule = .write 0x010 .word v :: rest →
    (s.engine.status.busy = true →
      step s = .next { s with
        schedule := rest
        response := .okay
        engine := { s.engine with status := { s.engine.status with ovr := true } } }) ∧
    (s.engine.status.busy = false →
      ∀ error : Option ErrCode,
      error = (match decode v with
        | none => some .illegalCmd
        | some .nop => none
        | some (.gcd _ _ _) => none
        | some (.modinv _ _ rm) => if (s.engine.reg rm).toNat = 0 then some .modZero else none
        | some (.modexp _ _ _ rm) => if (s.engine.reg rm).toNat = 0 then some .modZero else none
        | some (.modmul _ _ _ rm) => if (s.engine.reg rm).toNat = 0 then some .modZero else none
        | some (.modred _ _ rm) => if (s.engine.reg rm).toNat = 0 then some .modZero else none
        | some (.montmul _ ra rb rm) =>
          if (s.engine.reg rm).toNat = 0 then some .modZero
          else if (s.engine.reg rm).toNat % 2 = 0 ∨ (s.engine.reg rm).toNat ≤ (s.engine.reg ra).toNat ∨
              (s.engine.reg rm).toNat ≤ (s.engine.reg rb).toNat then some .badArg
          else none
        | some (.mrround _ ra rb) =>
          if (s.engine.reg ra).toNat ≤ 3 then some .badArg
          else if (s.engine.reg rb).toNat < 2 ∨ (s.engine.reg ra).toNat - 2 < (s.engine.reg rb).toNat then some .badArg
          else none
        | some (.isprime _ _ iters) => if iters = 0 then some .badArg else none) →
      (∀ code, error = some code →
        step s = .next { s with
          schedule := rest
          response := .okay
          engine := { s.engine with
            lastCmd := v, status := ⟨false, true, true, false, false, s.engine.status.ovr, code⟩ } }) ∧
      (∀ i, decode v = some i → error = none →
        step s = .next { s with
          schedule := rest
          response := .okay
          engine := { s.engine with
            lastCmd := v
            cur := ⟨i, ⟨s.engine.reg i.fields.ra, s.engine.reg i.fields.rb, s.engine.reg i.fields.rm, i.fields.imm,
              s.engine.ctrl.mrCompat⟩⟩
            status := ⟨true, false, false, false, false, s.engine.status.ovr, .none⟩ } }))

/-- R102: what a decoded CMD write leaves does not depend on the outcome that stood before, nor on the word before; OVR is
kept; and the outcome fields describe that command only: all clear when it is accepted, its error when it is not. -/
def Obligations.CmdWriteForgetsTheOldOutcome : Prop :=
  ∀ (s : State) (v : Word) (rest : List Event), s.engine.status.busy = false →
    s.schedule = .write 0x010 .word v :: rest →
    (∀ (st : Status) (w : Word), st.busy = false → st.ovr = s.engine.status.ovr →
      step { s with engine := { s.engine with status := st, lastCmd := w } } = step s) ∧
    ∃ t, step s = .next t ∧
      ((t.engine.status.busy = true ∧ t.engine.status = ⟨true, false, false, false, false, s.engine.status.ovr, .none⟩) ∨
        ∃ code, code ≠ .none ∧ t.engine.status = ⟨false, true, true, false, false, s.engine.status.ovr, code⟩)

/-- R212 at the CMD write: whatever word is written, if the command ends in an error then the state equals the state before
but for the outcome fields and LASTCMD; the error is one of the three found at accept. -/
def Obligations.ErrorsAtAcceptArePrecise : Prop :=
  ∀ (s t : State) (v : Word) (rest : List Event), s.engine.status.busy = false →
    s.schedule = .write 0x010 .word v :: rest → step s = .next t → t.engine.status.err = true →
    t = { s with
      schedule := rest
      response := .okay
      engine := { s.engine with
        lastCmd := v
        status := ⟨false, true, true, false, false, s.engine.status.ovr, t.engine.status.errcode⟩ } } ∧
    (t.engine.status.errcode = .illegalCmd ∨ t.engine.status.errcode = .modZero ∨ t.engine.status.errcode = .badArg)

/-! ### Completion -/

/-- R110: NOP's completion writes no X register; DONE is set and NOINV and PRIME are 0. -/
def Obligations.NopCompletes : Prop :=
  ∀ (s : State) (snap : Snapshot), s.engine.status.busy = true → s.engine.cur = ⟨.nop, snap⟩ →
    exec .nop s = .next { s with
      engine := { s.engine with
        status := { s.engine.status with busy := false, done := true, noinv := false, prime := false } } }

/-- R131, by the closed form the spec derives from its loop: GCD's completion writes gcd(A, B) to X[RD] (0 for two zeros) and nothing else but the outcome. -/
def Obligations.GcdCompletes : Prop :=
  ∀ (s : State) (rd ra rb : Reg) (snap : Snapshot), s.engine.status.busy = true →
    s.engine.cur = ⟨.gcd rd ra rb, snap⟩ →
    ∃ v : Operand, v.toNat = Nat.gcd snap.a.toNat snap.b.toNat ∧
      exec (.gcd rd ra rb) s = .next { s with
        engine := { s.engine with
          x := s.engine.x.set rd.val v
          status := { s.engine.status with busy := false, done := true, noinv := false, prime := false } } }

/-- R137, the closed form the spec derives from R136: MODINV's completion, for M ≥ 1. The loop's final r is gcd(A, M). It writes
0 and sets NOINV exactly when gcd(A, M) > 1; otherwise it writes the one x in [0, M) with (A·x) mod M = 1 mod M. -/
def Obligations.ModinvCompletes : Prop :=
  ∀ (s : State) (rd ra rm : Reg) (snap : Snapshot), s.engine.status.busy = true →
    s.engine.cur = ⟨.modinv rd ra rm, snap⟩ → snap.m ≠ 0 →
    ∃ v : Operand,
      exec (.modinv rd ra rm) s = .next { s with
        engine := { s.engine with
          x := s.engine.x.set rd.val v
          status := { s.engine.status with
            busy := false, done := true, prime := false
            noinv := decide (1 < Nat.gcd snap.a.toNat snap.m.toNat) } } } ∧
      (1 < Nat.gcd snap.a.toNat snap.m.toNat → v = 0) ∧
      (¬ 1 < Nat.gcd snap.a.toNat snap.m.toNat →
        v.toNat < snap.m.toNat ∧ snap.a.toNat * v.toNat % snap.m.toNat = 1 % snap.m.toNat ∧
        ∀ x < snap.m.toNat, snap.a.toNat * x % snap.m.toNat = 1 % snap.m.toNat → x = v.toNat) ∧
      (euclid snap.a.toNat snap.m.toNat).1 = Nat.gcd snap.a.toNat snap.m.toNat

/-- R152, the closed form the spec derives from R151: MODEXP's completion writes (A^B) mod M, for M ≥ 1. -/
def Obligations.ModexpCompletes : Prop :=
  ∀ (s : State) (rd ra rb rm : Reg) (snap : Snapshot), s.engine.status.busy = true →
    s.engine.cur = ⟨.modexp rd ra rb rm, snap⟩ → snap.m ≠ 0 →
    ∃ v : Operand, v.toNat = snap.a.toNat ^ snap.b.toNat % snap.m.toNat ∧
      exec (.modexp rd ra rb rm) s = .next { s with
        engine := { s.engine with
          x := s.engine.x.set rd.val v
          status := { s.engine.status with busy := false, done := true, noinv := false, prime := false } } }

/-- R155: MODMUL's completion writes (A·B) mod M of the exact product, for M ≥ 1. -/
def Obligations.ModmulCompletes : Prop :=
  ∀ (s : State) (rd ra rb rm : Reg) (snap : Snapshot), s.engine.status.busy = true →
    s.engine.cur = ⟨.modmul rd ra rb rm, snap⟩ → snap.m ≠ 0 →
    ∃ v : Operand, v.toNat = snap.a.toNat * snap.b.toNat % snap.m.toNat ∧
      exec (.modmul rd ra rb rm) s = .next { s with
        engine := { s.engine with
          x := s.engine.x.set rd.val v
          status := { s.engine.status with busy := false, done := true, noinv := false, prime := false } } }

/-- R157: MODRED's completion writes A mod M, for M ≥ 1. -/
def Obligations.ModredCompletes : Prop :=
  ∀ (s : State) (rd ra rm : Reg) (snap : Snapshot), s.engine.status.busy = true →
    s.engine.cur = ⟨.modred rd ra rm, snap⟩ → snap.m ≠ 0 →
    ∃ v : Operand, v.toNat = snap.a.toNat % snap.m.toNat ∧
      exec (.modred rd ra rm) s = .next { s with
        engine := { s.engine with
          x := s.engine.x.set rd.val v
          status := { s.engine.status with busy := false, done := true, noinv := false, prime := false } } }

/-- R161, which the spec marks as general knowledge: MONTMUL's completion, for odd M with A, B < M, writes the one x in [0, M) with (x·2^4096) mod M = (A·B) mod M. -/
def Obligations.MontmulCompletes : Prop :=
  ∀ (s : State) (rd ra rb rm : Reg) (snap : Snapshot), s.engine.status.busy = true →
    s.engine.cur = ⟨.montmul rd ra rb rm, snap⟩ → snap.m.toNat % 2 = 1 → snap.a < snap.m → snap.b < snap.m →
    ∃ v : Operand,
      exec (.montmul rd ra rb rm) s = .next { s with
        engine := { s.engine with
          x := s.engine.x.set rd.val v
          status := { s.engine.status with busy := false, done := true, noinv := false, prime := false } } } ∧
      v < snap.m ∧ v.toNat * 2 ^ 4096 % snap.m.toNat = snap.a.toNat * snap.b.toNat % snap.m.toNat ∧
      ∀ x < snap.m.toNat, x * 2 ^ 4096 % snap.m.toNat = snap.a.toNat * snap.b.toNat % snap.m.toNat → x = v.toNat

/-- R181 and R183: MRROUND's completion, for n > 3 and w in [2, n−2]. With n − 1 = 2^e · r and r odd, the verdict is 1, in
X[RD] and in PRIME, exactly when w^r mod n is 1 or n−1 or one of its first e − 1 squarings reaches n−1. -/
def Obligations.MrroundCompletes : Prop :=
  ∀ (s : State) (rd ra rb : Reg) (snap : Snapshot) (e r : Nat), s.engine.status.busy = true →
    s.engine.cur = ⟨.mrround rd ra rb, snap⟩ → 3 < snap.a.toNat → 2 ≤ snap.b.toNat →
    snap.b.toNat ≤ snap.a.toNat - 2 → snap.a.toNat - 1 = 2 ^ e * r → r % 2 = 1 →
    ∃ verdict : Bool,
      exec (.mrround rd ra rb) s = .next { s with
        engine := { s.engine with
          x := s.engine.x.set rd.val (if verdict then 1 else 0)
          status := { s.engine.status with busy := false, done := true, noinv := false, prime := verdict } } } ∧
      (verdict = true ↔
        snap.b.toNat ^ r % snap.a.toNat = 1 ∨ snap.b.toNat ^ r % snap.a.toNat = snap.a.toNat - 1 ∨
        ∃ j, 1 ≤ j ∧ j < e ∧ snap.b.toNat ^ (2 ^ j * r) % snap.a.toNat = snap.a.toNat - 1)

/-- R186 to R188: ISPRIME's completion. There are witnesses in [2, n−2] such that the verdict, in X[RD] and in PRIME, is 1
exactly when n is 2 or 3, or n > 3 and every one of the rounds (ITERS, or ITERS − 1 with MR_COMPAT) finds n probably prime. -/
def Obligations.IsprimeCompletes : Prop :=
  ∀ (s : State) (rd ra : Reg) (iters : Nat) (snap : Snapshot), s.engine.status.busy = true →
    s.engine.cur = ⟨.isprime rd ra iters, snap⟩ →
    ∃ (w : Nat → Nat) (verdict : Bool) (d : Nat),
      exec (.isprime rd ra iters) s = .next { s with
        engine := { s.engine with
          x := s.engine.x.set rd.val (if verdict then 1 else 0)
          status := { s.engine.status with busy := false, done := true, noinv := false, prime := verdict } }
        draws := s.draws + d } ∧
      (3 < snap.a.toNat → ∀ k, 2 ≤ w k ∧ w k ≤ snap.a.toNat - 2) ∧
      d ≤ (if snap.compat then snap.imm - 1 else snap.imm) ∧
      (verdict = true ↔
        snap.a.toNat = 2 ∨ snap.a.toNat = 3 ∨
        (3 < snap.a.toNat ∧ ∀ k < (if snap.compat then snap.imm - 1 else snap.imm),
          mrRound snap.a.toNat (w k) = .probablyPrime))

/-- R106's derived bound: a command accepted on values that pass its check writes a value below 2^4096, so narrowing it to
X[RD] loses nothing. -/
def Obligations.ResultsFitTheRegister : Prop :=
  ∀ (i : Instr) (snap : Snapshot) (draw : Nat → Nat) (v : Nat), checkOf i snap = none →
    (resultOf i snap draw).out = some v → v < 2 ^ 4096

/-- R22 and R106, the frame of every command: `exec` always answers a next state. Submission writes no X register;
completion writes at most X[RD]. CTRL, LASTCMD, OVR, the inputs to come and the last response are never changed; the
latched command only by a submission; ERR and ERRCODE only by a submission; NOP writes no X register at all. -/
def Obligations.CommandFrame : Prop :=
  ∀ (i : Instr) (s : State), ∃ t, exec i s = .next t ∧
    (∀ r : Reg, r ≠ i.fields.rd → t.engine.reg r = s.engine.reg r) ∧
    (s.engine.status.busy = false → t.engine.x = s.engine.x ∧ t.draws = s.draws ∧
      t.engine.status.noinv = s.engine.status.noinv ∧ t.engine.status.prime = s.engine.status.prime) ∧
    (s.engine.status.busy = true → t.engine.cur = s.engine.cur ∧ t.engine.status.err = s.engine.status.err ∧
      t.engine.status.errcode = s.engine.status.errcode) ∧
    (i = .nop → t.engine.x = s.engine.x) ∧
    ((∀ rd ra n, i ≠ .isprime rd ra n) → t.draws = s.draws) ∧
    t.engine.ctrl = s.engine.ctrl ∧ t.engine.lastCmd = s.engine.lastCmd ∧
    t.engine.status.ovr = s.engine.status.ovr ∧ t.schedule = s.schedule ∧ t.response = s.response

/-! ### The algorithms -/

/-- R180: for n > 3 the decomposition is exact with r odd; for even n it is s = 0 and r = n − 1. -/
def Obligations.DecompositionIsExact : Prop :=
  ∀ n : Nat, 3 < n → n < 2 ^ 4096 →
    n - 1 = 2 ^ (decompose n).1 * (decompose n).2 ∧ (decompose n).2 % 2 = 1 ∧
    (n % 2 = 0 → decompose n = (0, n - 1))

/-- R189: no witness proves a prime composite, so MRROUND's round passes for every prime above 3 and every witness. -/
def Obligations.PrimesPassEveryRound : Prop :=
  ∀ n w : Nat, n.Prime → 3 < n → n < 2 ^ 4096 → 2 ≤ w → w ≤ n - 2 → mrRound n w = .probablyPrime

/-- R189: for a prime candidate ISPRIME's verdict is 1, whatever is drawn, for every count and in both modes. -/
def Obligations.IsprimeAcceptsEveryPrime : Prop :=
  ∀ (s : State) (rd ra : Reg) (iters : Nat) (snap : Snapshot), s.engine.status.busy = true →
    s.engine.cur = ⟨.isprime rd ra iters, snap⟩ → snap.a.toNat.Prime →
    ∃ d, exec (.isprime rd ra iters) s = .next { s with
      engine := { s.engine with
        x := s.engine.x.set rd.val 1
        status := { s.engine.status with busy := false, done := true, noinv := false, prime := true } }
      draws := s.draws + d }

/-- R189: 0 and 1 are never prime; a candidate with no strong liar, as 4 and 9, is never declared prime once a round is
run, whatever is drawn. -/
def Obligations.IsprimeRejectsWithoutLiars : Prop :=
  ∀ (s : State) (rd ra : Reg) (iters : Nat) (snap : Snapshot), s.engine.status.busy = true →
    s.engine.cur = ⟨.isprime rd ra iters, snap⟩ →
    (snap.a.toNat = 0 ∨ snap.a.toNat = 1 ∨
      (3 < snap.a.toNat ∧ 1 ≤ (if snap.compat then snap.imm - 1 else snap.imm) ∧
        ((∀ w, 2 ≤ w → w ≤ snap.a.toNat - 2 → mrRound snap.a.toNat w = .composite) ∨
          snap.a.toNat = 4 ∨ snap.a.toNat = 9))) →
    ∃ d, exec (.isprime rd ra iters) s = .next { s with
      engine := { s.engine with
        x := s.engine.x.set rd.val 0
        status := { s.engine.status with busy := false, done := true, noinv := false, prime := false } }
      draws := s.draws + d }

/-- R189: the rules admit both outcomes for a composite that has a liar and a witness: some draws give each verdict. Every
value of [2, n−2] is some draw's. -/
def Obligations.LiarsAdmitBothVerdicts : Prop :=
  (∀ n w : Nat, 3 < n → 2 ≤ w → w ≤ n - 2 → ∃ raw, witness n raw = w) ∧
  (∀ n raw : Nat, 3 < n → 2 ≤ witness n raw ∧ witness n raw ≤ n - 2) ∧
  (∀ n rounds : Nat, 3 < n → 1 ≤ rounds →
    ((∃ w, 2 ≤ w ∧ w ≤ n - 2 ∧ mrRound n w = .probablyPrime) →
      ∃ draw : Nat → Nat, (primality n rounds draw).1 = .probablyPrime) ∧
    ((∃ w, 2 ≤ w ∧ w ≤ n - 2 ∧ mrRound n w = .composite) →
      ∃ draw : Nat → Nat, (primality n rounds draw).1 = .composite))

/-- R187 and R189: with MR_COMPAT = 1 sampled at accept and ITERS = 1, no round is run, no witness is drawn, and the
verdict is 1 for every n > 3. -/
def Obligations.CompatibilityModeWithOneIterationAcceptsAll : Prop :=
  ∀ (s : State) (rd ra : Reg) (snap : Snapshot), s.engine.status.busy = true →
    s.engine.cur = ⟨.isprime rd ra 1, snap⟩ → snap.imm = 1 → snap.compat = true → 3 < snap.a.toNat →
    exec (.isprime rd ra 1) s = .next { s with
      engine := { s.engine with
        x := s.engine.x.set rd.val 1
        status := { s.engine.status with busy := false, done := true, noinv := false, prime := true } } }

/-- R162's use of MONTMUL: into Montgomery form with R² mod M, multiplied there, and back with 1, is the product mod M; into
the form and back is the identity. -/
def Obligations.MontgomeryFormRoundTrip : Prop :=
  ∀ a b m : Nat, m % 2 = 1 → a < m → b < m →
    montValue (montValue a (montRadix * montRadix % m) m) 1 m = a ∧
    montValue (montValue (montValue a (montRadix * montRadix % m) m) (montValue b (montRadix * montRadix % m) m) m) 1 m =
      a * b % m

/-! ### The life of a command -/

/-- R100: a legal command whose check passes, submitted to the idle engine and completed, has exactly the effect of its
value on the operands it found: X[RD] takes it, the verdict flags are its, DONE is set and ERR is not, and nothing else of
the registers changes. It holds whichever of its register fields coincide (R109). -/
def Obligations.SubmitThenCompleteIsTheCommand : Prop :=
  ∀ (i : Instr) (s : State) (rest : List Event), i.WellFormed → s.engine.status.busy = false →
    checkOf i (snapshot i s.engine) = none →
    s.schedule = .write 0x010 .word (encode i) :: .complete :: rest →
    ∃ t, Host.Core.run core 2 s = .next t ∧ Succeeded t ∧ t.schedule = rest ∧
      t.engine.x = (s.engine.writeOut i.fields.rd (resultOf i (snapshot i s.engine) s.drawsAhead).out).x ∧
      t.engine.status.noinv = (resultOf i (snapshot i s.engine) s.drawsAhead).noinv ∧
      t.engine.status.prime = (resultOf i (snapshot i s.engine) s.drawsAhead).prime ∧
      t.engine.lastCmd = encode i ∧ t.engine.ctrl = s.engine.ctrl ∧ t.engine.status.ovr = s.engine.status.ovr

/-- R109 and R152: MODEXP from its CMD write to its completion, with any of its four register fields coinciding: X[RD]
becomes X[RA]^X[RB] mod X[RM] of the old values, every other register is as before. -/
def Obligations.ModexpWithAnyAliasing : Prop :=
  ∀ (s : State) (rd ra rb rm : Reg) (rest : List Event), s.engine.status.busy = false → s.engine.reg rm ≠ 0 →
    s.schedule = .write 0x010 .word (encode (.modexp rd ra rb rm)) :: .complete :: rest →
    ∃ t, Host.Core.run core 2 s = .next t ∧ Succeeded t ∧
      (t.engine.reg rd).toNat =
        (s.engine.reg ra).toNat ^ (s.engine.reg rb).toNat % (s.engine.reg rm).toNat ∧
      ∀ r : Reg, r ≠ rd → t.engine.reg r = s.engine.reg r

/-- R66, R57, R105 and R103: while a command runs, no series of host accesses without ABORT and SRST changes an X register,
the latched command, LASTCMD or BUSY, or sets DONE or ERR. -/
def Obligations.HostCannotDisturbARunningCommand : Prop :=
  ∀ (evs rest : List Event) (s : State), s.engine.status.busy = true → evs.all Event.leavesRunning = true →
    s.schedule = evs ++ rest →
    ∃ t, Host.Core.run core evs.length s = .next t ∧ t.schedule = rest ∧ t.engine.x = s.engine.x ∧
      t.engine.cur = s.engine.cur ∧ t.engine.lastCmd = s.engine.lastCmd ∧ t.engine.status.busy = true ∧
      (s.engine.status.done = false → t.engine.status.done = false) ∧
      (s.engine.status.err = false → t.engine.status.err = false)

/-- R107 and R106: whatever the host does meanwhile, short of ABORT, SRST and reset, a running command finishes once the
host's accesses are over, without an error; and for every command but ISPRIME, whose draws are free, the registers are
those an immediate completion would have left. -/
def Obligations.RunningCommandFinishes : Prop :=
  ∀ (s : State), s.engine.Inv → s.engine.status.busy = true → s.schedule.all Event.leavesRunning = true →
    ∃ t, Host.Core.run core (s.schedule.length + 1) s = .next t ∧ Succeeded t ∧ ProgramFinished t ∧
      t.schedule = [] ∧
      ((∀ rd ra n, s.engine.cur.cmd ≠ .isprime rd ra n) → ∀ u, engineStep s = .next u →
        t.engine.x = u.engine.x ∧ t.engine.status.noinv = u.engine.status.noinv ∧
        t.engine.status.prime = u.engine.status.prime)

/-- R112: a submitted command is finished in the first state after its CMD write with BUSY = 0 and DONE = 1. An accepted
command, however many host accesses short of ABORT and SRST come before its completion, finishes exactly at that
completion, and succeeds; a command that ends in an immediate error finishes in the state after the write, and fails. -/
def Obligations.CommandFinishesFirstAtItsEnd : Prop :=
  (∀ (s : State) (v : Word) (i : Instr) (evs rest : List Event), s.engine.status.busy = false → decode v = some i →
    checkOf i (snapshot i s.engine) = none → evs.all Event.leavesRunning = true →
    s.schedule = .write 0x010 .word v :: (evs ++ .complete :: rest) →
    ∃ t, FinishesAt s (evs.length + 2) t ∧ Succeeded t ∧ t.schedule = rest) ∧
  (∀ (s : State) (v : Word) (rest : List Event), s.engine.status.busy = false →
    (decode v = none ∨ ∃ i code, decode v = some i ∧ checkOf i (snapshot i s.engine) = some code) →
    s.schedule = .write 0x010 .word v :: rest →
    ∃ t, FinishesAt s 1 t ∧ ¬ Succeeded t ∧ t.schedule = rest)

/-- R112: a host program is finished exactly when no host access is left (completion points and resets may be) and BUSY = 0.
It then stays finished, and only a reset changes the engine. A state with BUSY = 1 is final in neither sense. -/
def Obligations.FinishedProgramStaysFinished : Prop :=
  (∀ s : State, ProgramFinished s ↔
    (∀ ev ∈ s.schedule, ev = .complete ∨ ev = .reset) ∧ s.engine.status.busy = false) ∧
  (∀ s : State, ProgramFinished s → ∃ t, step s = .next t ∧ ProgramFinished t ∧
    (t.engine = s.engine ∨ ∃ rest, s.schedule = .reset :: rest)) ∧
  (∀ s : State, s.engine.status.busy = true → ¬ Finished s ∧ ¬ ProgramFinished s)

/-- R108: ABORT while BUSY ends the command with DONE, ERR and ABORTED, writing no X register, NOINV and PRIME staying 0;
while idle ABORT does nothing. -/
def Obligations.AbortEndsTheCommand : Prop :=
  ∀ (s : State) (v : Word) (rest : List Event), s.engine.Inv → v[2] = true → v[3] = false →
    s.schedule = .write 0x008 .word v :: rest →
    ∃ t, step s = .next t ∧ t.engine.x = s.engine.x ∧ t.engine.lastCmd = s.engine.lastCmd ∧
      t.engine.ctrl = ⟨v[0], v[1]⟩ ∧
      (s.engine.status.busy = true →
        t.engine.status = ⟨false, true, true, false, false, s.engine.status.ovr, .aborted⟩) ∧
      (s.engine.status.busy = false → t.engine.status = s.engine.status)

/-- R214: ABORT or SRST against the completion of a running command: whichever is ordered first takes effect. A completion
first makes ABORT find an idle engine; an abort first leaves no completion to come; SRST ends in the reset state either
way, also in one write with ABORT. -/
def Obligations.AbortAndCompletionRace : Prop :=
  ∀ (s : State) (v : Word) (rest : List Event), s.engine.Inv → s.engine.status.busy = true →
    (v[2] = true → v[3] = false → s.schedule = .complete :: .write 0x008 .word v :: rest →
      ∃ t u, Host.Core.run core 2 s = .next t ∧ engineStep s = .next u ∧ Succeeded t ∧
        t.engine.x = u.engine.x ∧ t.engine.status = u.engine.status) ∧
    (v[2] = true → v[3] = false → s.schedule = .write 0x008 .word v :: .complete :: rest →
      ∃ t, Host.Core.run core 2 s = .next t ∧ Finished t ∧ t.engine.x = s.engine.x ∧
        t.engine.status.err = true ∧ t.engine.status.errcode = .aborted) ∧
    (v[3] = true →
      (s.schedule = .complete :: .write 0x008 .word v :: rest ∨
        s.schedule = .write 0x008 .word v :: .complete :: rest) →
      ∃ t c, Host.Core.run core 2 s = .next t ∧ t.engine = { State.reset.engine with cur := c })

/-- R220: `irq` is IE ∧ DONE. Setting IE with DONE standing asserts it at once; clearing IE drops it and leaves DONE;
clearing DONE drops it, and so does a CMD write that is accepted; OVR, NOINV and PRIME do not drive it. -/
def Obligations.InterruptIsEnableAndDone : Prop :=
  (∀ e : Engine, e.irq = (e.ctrl.ie && e.status.done)) ∧
  (∀ (e : Engine) (b c d : Bool),
    { e with status := { e.status with ovr := b, noinv := c, prime := d } }.irq = e.irq) ∧
  (∀ (s : State) (v : Word) (rest : List Event), v[2] = false → v[3] = false →
    s.schedule = .write 0x008 .word v :: rest →
    ∃ t, step s = .next t ∧ t.engine.irq = (v[0] && s.engine.status.done) ∧
      t.engine.status.done = s.engine.status.done) ∧
  (∀ (s : State) (v : Word) (rest : List Event), v[1] = true → s.schedule = .write 0x00C .word v :: rest →
    ∃ t, step s = .next t ∧ t.engine.irq = false ∧ t.engine.ctrl = s.engine.ctrl) ∧
  (∀ (s t : State) (v : Word) (rest : List Event), s.engine.status.busy = false →
    s.schedule = .write 0x010 .word v :: rest → step s = .next t →
    t.engine.irq = (s.engine.ctrl.ie && !t.engine.status.busy))

/-! ### Rules of the whole machine -/

/-- The engine's invariant holds after reset: the model's own summary of R28, R101 and R240. -/
def Obligations.InvariantHoldsAtReset : Prop := State.reset.engine.Inv ∧ Safe State.reset

/-- Every step keeps the engine's invariant, from every state that meets it (R29: while BUSY, DONE and ERR are 0; R28: ERR
and ERRCODE stand together; R101: the latched command is the one LASTCMD spells, and it passed its check). -/
def Obligations.EveryStepKeepsTheInvariant : Prop :=
  ∀ s t : State, s.engine.Inv → step s = .next t → t.engine.Inv

/-- R210 and R52: from a safe state, whose inputs all reach the engine, no run ever stops, and every state it reaches is safe:
no command and no access of the aperture faults or is refused. -/
def Obligations.SafeRunsNeverStop : Prop :=
  ∀ (n : Nat) (s : State), Safe s → ∃ t, Host.Core.run core n s = .next t ∧ Safe t

/-- R22: an X register changes only by a host write of one of its limbs while idle, by the completion of the command that
names it as RD, or by a reset. -/
def Obligations.OnlyThreeThingsWriteAnOperandRegister : Prop :=
  ∀ (s t : State) (r : Reg), step s = .next t → t.engine.reg r ≠ s.engine.reg r →
    (s.engine.status.busy = false ∧ ∃ j v rest, s.schedule = .write (limbOffset r j) .word v :: rest) ∨
    (s.engine.status.busy = true ∧ r = s.engine.cur.cmd.fields.rd ∧
      (s.schedule = [] ∨ ∃ rest, s.schedule = .complete :: rest)) ∨
    ((∃ c, t.engine = { State.reset.engine with cur := c }) ∧
      ((∃ rest, s.schedule = .reset :: rest) ∨
        ∃ v rest, v[3] = true ∧ s.schedule = .write 0x008 .word v :: rest))

/-- R28's "set by" column for DONE: it rises only by a completion, by an immediate error or by an abort. -/
def Obligations.OnlyThreeThingsSetDone : Prop :=
  ∀ s t : State, step s = .next t → s.engine.status.done = false → t.engine.status.done = true →
    (s.engine.status.busy = true ∧ t.engine.status.busy = false ∧ t.engine.status.err = s.engine.status.err ∧
      (s.schedule = [] ∨ ∃ rest, s.schedule = .complete :: rest)) ∨
    (s.engine.status.busy = false ∧ t.engine.status.err = true ∧ t.engine.x = s.engine.x ∧
      ∃ v rest, s.schedule = .write 0x010 .word v :: rest) ∨
    (s.engine.status.busy = true ∧ t.engine.status.errcode = .aborted ∧ t.engine.x = s.engine.x ∧
      ∃ v rest, v[2] = true ∧ v[3] = false ∧ s.schedule = .write 0x008 .word v :: rest)

/-- R28's row for OVR: it rises only by a CMD or X-window write while BUSY, and falls only by W1C or a reset. -/
def Obligations.OvrRisesAndFallsAsStated : Prop :=
  ∀ s t : State, step s = .next t →
    (s.engine.status.ovr = false → t.engine.status.ovr = true →
      s.engine.status.busy = true ∧ ∃ off v rest, s.schedule = .write off .word v :: rest ∧
        (off = 0x010 ∨ (0x1000 ≤ off ∧ off < 0x2000))) ∧
    (s.engine.status.ovr = true → t.engine.status.ovr = false →
      (∃ v rest, v[5] = true ∧ s.schedule = .write 0x00C .word v :: rest) ∨
        ∃ c, t.engine = { State.reset.engine with cur := c })

/-- R37: the latched command is never read while BUSY = 0. Two idle states that differ only in it take the same step, and
differ after it in nothing else. -/
def Obligations.LatchedCommandIsUnreadWhileIdle : Prop :=
  ∀ (s t : State) (c : Latched), s.engine.status.busy = false → step s = .next t →
    ∃ u, step { s with engine := { s.engine with cur := c } } = .next u ∧
      { u with engine := { u.engine with cur := t.engine.cur } } = t ∧
      (t.engine.status.busy = true → u = t)
end

