-- ==== Sys2Proof/Laws/Encoding.lean ====
section
/-! SUPPORT. The bits of an encoded command word, and its fields read back. -/

namespace Sys2Proof

/-- A register number has three bits (30_encoding.md R81). -/
theorem reg_testBit_ge (r : Reg) {k : Nat} (h : 3 ≤ k) : r.val.testBit k = false :=
  Nat.testBit_lt_two_pow (Nat.lt_of_lt_of_le r.isLt (Nat.pow_le_pow_right (by decide : 0 < 2) h))

/-- The fields of an encoded word, bit by bit (30_encoding.md R81, R92). -/
theorem getLsbD_word (f : Fields) {k : Nat} (hk : k < 32) :
    f.word.getLsbD k =
      if k < 6 then f.op.getLsbD k
      else if k < 9 then f.rd.val.testBit (k - 6)
      else if k < 12 then f.ra.val.testBit (k - 9)
      else if k < 15 then f.rb.val.testBit (k - 12)
      else if k < 18 then f.rm.val.testBit (k - 15)
      else if k < 20 then false
      else f.imm.testBit (k - 20) := by
  have hrd := fun j => @reg_testBit_ge f.rd j
  have hra := fun j => @reg_testBit_ge f.ra j
  have hrb := fun j => @reg_testBit_ge f.rb j
  have hrm := fun j => @reg_testBit_ge f.rm j
  simp only [Fields.word, BitVec.getLsbD_or, BitVec.getLsbD_shiftLeft, BitVec.getLsbD_setWidth, BitVec.getLsbD_ofNat]
  interval_cases k <;> simp [hrd, hra, hrb, hrm]

@[simp] theorem opField_word (f : Fields) : opField f.word = f.op := by
  apply BitVec.eq_of_getLsbD_eq
  intro k hk
  simp only [opField, BitVec.getLsbD_extractLsb', hk, decide_true, Bool.true_and]
  rw [getLsbD_word f (by omega), if_pos (by omega)]
  congr 1; omega

/-- Three bits that are a register number's read back as it. -/
theorem toFin_eq {v : BitVec 3} {r : Reg} (h : ∀ k < 3, v.getLsbD k = r.val.testBit k) : (v.toFin : Reg) = r := by
  have hv : v = BitVec.ofNat 3 r.val := by
    apply BitVec.eq_of_getLsbD_eq
    intro k hk
    rw [h k hk, BitVec.getLsbD_ofNat]
    simp [hk]
  apply Fin.ext
  rw [hv]
  exact Nat.mod_eq_of_lt r.isLt

@[simp] theorem rdField_word (f : Fields) : rdField f.word = f.rd := by
  apply toFin_eq
  intro k hk
  simp only [BitVec.getLsbD_extractLsb', hk, decide_true, Bool.true_and]
  rw [getLsbD_word f (by omega), if_neg (by omega), if_pos (by omega)]
  congr 1; omega

@[simp] theorem raField_word (f : Fields) : raField f.word = f.ra := by
  apply toFin_eq
  intro k hk
  simp only [BitVec.getLsbD_extractLsb', hk, decide_true, Bool.true_and]
  rw [getLsbD_word f (by omega), if_neg (by omega), if_neg (by omega), if_pos (by omega)]
  congr 1; omega

@[simp] theorem rbField_word (f : Fields) : rbField f.word = f.rb := by
  apply toFin_eq
  intro k hk
  simp only [BitVec.getLsbD_extractLsb', hk, decide_true, Bool.true_and]
  rw [getLsbD_word f (by omega), if_neg (by omega), if_neg (by omega), if_neg (by omega), if_pos (by omega)]
  congr 1; omega

@[simp] theorem rmField_word (f : Fields) : rmField f.word = f.rm := by
  apply toFin_eq
  intro k hk
  simp only [BitVec.getLsbD_extractLsb', hk, decide_true, Bool.true_and]
  rw [getLsbD_word f (by omega), if_neg (by omega), if_neg (by omega), if_neg (by omega), if_neg (by omega),
    if_pos (by omega)]
  congr 1; omega

/-- IMM reads back where it fits its 12 bits (30_encoding.md R82, R93). -/
theorem immField_word {f : Fields} (h : f.imm ≤ Config.itersMax) : immField f.word = f.imm := by
  have hv : f.word.extractLsb' 20 12 = BitVec.ofNat 12 f.imm := by
    apply BitVec.eq_of_getLsbD_eq
    intro k hk
    simp only [BitVec.getLsbD_extractLsb', BitVec.getLsbD_ofNat, hk, decide_true, Bool.true_and]
    rw [getLsbD_word f (by omega), if_neg (by omega), if_neg (by omega), if_neg (by omega), if_neg (by omega),
      if_neg (by omega), if_neg (by omega)]
    congr 1; omega
  rw [immField, hv, BitVec.toNat_ofNat]
  exact Nat.mod_eq_of_lt (by simp only [Config.itersMax] at h; omega)

/-- The reserved bits 19:18 of an encoded word are 0 (30_encoding.md R86). -/
theorem reserved_word (f : Fields) : f.word.extractLsb' 18 2 = 0 := by
  apply BitVec.eq_of_getLsbD_eq
  intro k hk
  simp only [BitVec.getLsbD_extractLsb', hk, decide_true, Bool.true_and]
  rw [getLsbD_word f (by omega), if_neg (by omega), if_neg (by omega), if_neg (by omega), if_neg (by omega),
    if_neg (by omega), if_pos (by omega)]
  simp


/-- A row's mask covers OP, so a word that hits the row has the row's OP (30_encoding.md R85). -/
theorem opField_of_hits {r : Row} {v : Word} (hm : opField r.mask = 0x3F) (h : r.hits v = true) :
    opField v = opField r.val := by
  have h' : v &&& r.mask = r.val := by simpa [Row.hits] using h
  have hm' : r.mask.extractLsb' 0 6 = BitVec.allOnes 6 := hm
  rw [← h', opField, opField, BitVec.extractLsb'_and, hm', BitVec.and_allOnes]

/-- A word whose reserved bits are 0 is put together again from its fields (30_encoding.md R81, R92). -/
theorem word_of_fields {v : Word} (h : v.extractLsb' 18 2 = 0) :
    Fields.word ⟨opField v, rdField v, raField v, rbField v, rmField v, immField v⟩ = v := by
  have hreg : ∀ a k, ((v.extractLsb' a 3).toFin : Reg).val.testBit k = (v.extractLsb' a 3).getLsbD k := fun _ _ => rfl
  have himm : ∀ k, (immField v).testBit k = (v.extractLsb' 20 12).getLsbD k := fun _ => rfl
  have h18 : v.getLsbD 18 = false := by simpa using congrArg (fun x => x.getLsbD 0) h
  have h19 : v.getLsbD 19 = false := by simpa using congrArg (fun x => x.getLsbD 1) h
  apply BitVec.eq_of_getLsbD_eq
  intro k hk
  rw [getLsbD_word _ hk]
  simp only [opField, rdField, raField, rbField, rmField, hreg, himm, BitVec.getLsbD_extractLsb']
  by_cases h1 : k < 6
  · simp [h1]
  by_cases h2 : k < 9
  · simp [h1, h2, show k - 6 < 3 by omega, show 6 + (k - 6) = k by omega]
  by_cases h3 : k < 12
  · simp [h1, h2, h3, show k - 9 < 3 by omega, show 9 + (k - 9) = k by omega]
  by_cases h4 : k < 15
  · simp [h1, h2, h3, h4, show k - 12 < 3 by omega, show 12 + (k - 12) = k by omega]
  by_cases h5 : k < 18
  · simp [h1, h2, h3, h4, h5, show k - 15 < 3 by omega, show 15 + (k - 15) = k by omega]
  by_cases h6 : k < 20
  · rcases (by omega : k = 18 ∨ k = 19) with rfl | rfl <;> simp_all
  · simp [h1, h2, h3, h4, h5, h6, show k - 20 < 12 by omega, show 20 + (k - 20) = k by omega]

end Sys2Proof
end

