-- ==== Sys2Proof/Laws/State.lean ====
section
/-! SUPPORT. One lemma per field and update of the state, true by unfolding, so that no proof unfolds a record update. -/

namespace Sys2Proof.Machine

@[simp] theorem State.withEngine_engine (s : State) (e : Engine) : (s.withEngine e).engine = e := rfl
@[simp] theorem State.withEngine_schedule (s : State) (e : Engine) : (s.withEngine e).schedule = s.schedule := rfl
@[simp] theorem State.withEngine_response (s : State) (e : Engine) : (s.withEngine e).response = s.response := rfl
@[simp] theorem State.withEngine_draws (s : State) (e : Engine) : (s.withEngine e).draws = s.draws := rfl

@[simp] theorem State.withStatus_engine (s : State) (st : Status) : (s.withStatus st).engine = { s.engine with status := st } := rfl
@[simp] theorem State.withStatus_schedule (s : State) (st : Status) : (s.withStatus st).schedule = s.schedule := rfl
@[simp] theorem State.withStatus_response (s : State) (st : Status) : (s.withStatus st).response = s.response := rfl
@[simp] theorem State.withStatus_draws (s : State) (st : Status) : (s.withStatus st).draws = s.draws := rfl

@[simp] theorem respond_engine (r : Response) (s : State) : (respond r s).engine = s.engine := rfl
@[simp] theorem respond_schedule (r : Response) (s : State) : (respond r s).schedule = s.schedule := rfl
@[simp] theorem respond_response (r : Response) (s : State) : (respond r s).response = r := rfl
@[simp] theorem respond_draws (r : Response) (s : State) : (respond r s).draws = s.draws := rfl

@[simp] theorem raiseError_engine (c : ErrCode) (s : State) : (raiseError c s).engine = { s.engine with status := s.engine.status.failed c } := rfl
@[simp] theorem raiseError_schedule (c : ErrCode) (s : State) : (raiseError c s).schedule = s.schedule := rfl
@[simp] theorem raiseError_response (c : ErrCode) (s : State) : (raiseError c s).response = s.response := rfl
@[simp] theorem raiseError_draws (c : ErrCode) (s : State) : (raiseError c s).draws = s.draws := rfl

@[simp] theorem abort_engine (s : State) : (abort s).engine = { s.engine with status := s.engine.status.failed .aborted } := rfl
@[simp] theorem abort_schedule (s : State) : (abort s).schedule = s.schedule := rfl
@[simp] theorem abort_response (s : State) : (abort s).response = s.response := rfl
@[simp] theorem abort_draws (s : State) : (abort s).draws = s.draws := rfl

@[simp] theorem setOvr_engine (s : State) : (setOvr s).engine = { s.engine with status := { s.engine.status with ovr := true } } := rfl
@[simp] theorem setOvr_schedule (s : State) : (setOvr s).schedule = s.schedule := rfl
@[simp] theorem setOvr_response (s : State) : (setOvr s).response = s.response := rfl
@[simp] theorem setOvr_draws (s : State) : (setOvr s).draws = s.draws := rfl

@[simp] theorem resetEngine_engine (s : State) : (resetEngine s).engine = Engine.reset := rfl
@[simp] theorem resetEngine_schedule (s : State) : (resetEngine s).schedule = s.schedule := rfl
@[simp] theorem resetEngine_response (s : State) : (resetEngine s).response = s.response := rfl
@[simp] theorem resetEngine_draws (s : State) : (resetEngine s).draws = s.draws := rfl

@[simp] theorem beginCommand_engine (v : Word) (s : State) : (beginCommand v s).engine = { s.engine with lastCmd := v, status := s.engine.status.clearOutcome } := rfl
@[simp] theorem beginCommand_schedule (v : Word) (s : State) : (beginCommand v s).schedule = s.schedule := rfl
@[simp] theorem beginCommand_response (v : Word) (s : State) : (beginCommand v s).response = s.response := rfl
@[simp] theorem beginCommand_draws (v : Word) (s : State) : (beginCommand v s).draws = s.draws := rfl

@[simp] theorem accept_engine (i : Instr) (snap : Snapshot) (s : State) : (accept i snap s).engine = { s.engine with cur := ⟨i, snap⟩, status := { s.engine.status with busy := true } } := rfl
@[simp] theorem accept_schedule (i : Instr) (snap : Snapshot) (s : State) : (accept i snap s).schedule = s.schedule := rfl
@[simp] theorem accept_response (i : Instr) (snap : Snapshot) (s : State) : (accept i snap s).response = s.response := rfl
@[simp] theorem accept_draws (i : Instr) (snap : Snapshot) (s : State) : (accept i snap s).draws = s.draws := rfl

@[simp] theorem complete_engine (rd : Reg) (c : Completion) (s : State) : (complete rd c s).engine = { s.engine.writeOut rd c.out with status := (s.engine.writeOut rd c.out).status.completed c.noinv c.prime } := rfl
@[simp] theorem complete_schedule (rd : Reg) (c : Completion) (s : State) : (complete rd c s).schedule = s.schedule := rfl
@[simp] theorem complete_response (rd : Reg) (c : Completion) (s : State) : (complete rd c s).response = s.response := rfl
@[simp] theorem complete_draws (rd : Reg) (c : Completion) (s : State) : (complete rd c s).draws = s.draws + c.drawn := rfl

@[simp] theorem Status.clearOutcome_busy (st : Status) : st.clearOutcome.busy = st.busy := rfl
@[simp] theorem Status.clearOutcome_done (st : Status) : st.clearOutcome.done = false := rfl
@[simp] theorem Status.clearOutcome_err (st : Status) : st.clearOutcome.err = false := rfl
@[simp] theorem Status.clearOutcome_noinv (st : Status) : st.clearOutcome.noinv = false := rfl
@[simp] theorem Status.clearOutcome_prime (st : Status) : st.clearOutcome.prime = false := rfl
@[simp] theorem Status.clearOutcome_ovr (st : Status) : st.clearOutcome.ovr = st.ovr := rfl
@[simp] theorem Status.clearOutcome_errcode (st : Status) : st.clearOutcome.errcode = ErrCode.none := rfl

@[simp] theorem Status.failed_busy (st : Status) (c : ErrCode) : (st.failed c).busy = false := rfl
@[simp] theorem Status.failed_done (st : Status) (c : ErrCode) : (st.failed c).done = true := rfl
@[simp] theorem Status.failed_err (st : Status) (c : ErrCode) : (st.failed c).err = true := rfl
@[simp] theorem Status.failed_noinv (st : Status) (c : ErrCode) : (st.failed c).noinv = st.noinv := rfl
@[simp] theorem Status.failed_prime (st : Status) (c : ErrCode) : (st.failed c).prime = st.prime := rfl
@[simp] theorem Status.failed_ovr (st : Status) (c : ErrCode) : (st.failed c).ovr = st.ovr := rfl
@[simp] theorem Status.failed_errcode (st : Status) (c : ErrCode) : (st.failed c).errcode = c := rfl

@[simp] theorem Status.completed_busy (st : Status) (noinv prime : Bool) : (st.completed noinv prime).busy = false := rfl
@[simp] theorem Status.completed_done (st : Status) (noinv prime : Bool) : (st.completed noinv prime).done = true := rfl
@[simp] theorem Status.completed_err (st : Status) (noinv prime : Bool) : (st.completed noinv prime).err = st.err := rfl
@[simp] theorem Status.completed_noinv (st : Status) (noinv prime : Bool) : (st.completed noinv prime).noinv = noinv := rfl
@[simp] theorem Status.completed_prime (st : Status) (noinv prime : Bool) : (st.completed noinv prime).prime = prime := rfl
@[simp] theorem Status.completed_ovr (st : Status) (noinv prime : Bool) : (st.completed noinv prime).ovr = st.ovr := rfl
@[simp] theorem Status.completed_errcode (st : Status) (noinv prime : Bool) : (st.completed noinv prime).errcode = st.errcode := rfl

@[simp] theorem Status.w1c_busy (st : Status) (v : Word) : (st.w1c v).busy = st.busy := rfl
@[simp] theorem Status.w1c_done (st : Status) (v : Word) : (st.w1c v).done = (st.done && !v[1]) := rfl
@[simp] theorem Status.w1c_err (st : Status) (v : Word) : (st.w1c v).err = (st.err && !v[2]) := rfl
@[simp] theorem Status.w1c_noinv (st : Status) (v : Word) : (st.w1c v).noinv = st.noinv := rfl
@[simp] theorem Status.w1c_prime (st : Status) (v : Word) : (st.w1c v).prime = st.prime := rfl
@[simp] theorem Status.w1c_ovr (st : Status) (v : Word) : (st.w1c v).ovr = (st.ovr && !v[5]) := rfl
@[simp] theorem Status.w1c_errcode (st : Status) (v : Word) : (st.w1c v).errcode = if v[2] then .none else st.errcode := rfl

@[simp] theorem Engine.setReg_ctrl (e : Engine) (r : Reg) (v : Operand) : (e.setReg r v).ctrl = e.ctrl := rfl
@[simp] theorem Engine.setReg_status (e : Engine) (r : Reg) (v : Operand) : (e.setReg r v).status = e.status := rfl
@[simp] theorem Engine.setReg_lastCmd (e : Engine) (r : Reg) (v : Operand) : (e.setReg r v).lastCmd = e.lastCmd := rfl
@[simp] theorem Engine.setReg_cur (e : Engine) (r : Reg) (v : Operand) : (e.setReg r v).cur = e.cur := rfl
@[simp] theorem Engine.setReg_x (e : Engine) (r : Reg) (v : Operand) : (e.setReg r v).x = e.x.set r.val v := rfl

@[simp] theorem Engine.writeOut_ctrl (e : Engine) (rd : Reg) (o : Option Nat) : (e.writeOut rd o).ctrl = e.ctrl := by
  cases o <;> rfl
@[simp] theorem Engine.writeOut_status (e : Engine) (rd : Reg) (o : Option Nat) : (e.writeOut rd o).status = e.status := by
  cases o <;> rfl
@[simp] theorem Engine.writeOut_lastCmd (e : Engine) (rd : Reg) (o : Option Nat) : (e.writeOut rd o).lastCmd = e.lastCmd := by
  cases o <;> rfl
@[simp] theorem Engine.writeOut_cur (e : Engine) (rd : Reg) (o : Option Nat) : (e.writeOut rd o).cur = e.cur := by
  cases o <;> rfl

@[simp] theorem Engine.writeOut_none (e : Engine) (rd : Reg) : e.writeOut rd none = e := rfl
@[simp] theorem Engine.writeOut_some (e : Engine) (rd : Reg) (v : Nat) :
    e.writeOut rd (some v) = e.setReg rd (BitVec.ofNat 4096 v) := rfl

@[simp] theorem snapshot_a (i : Instr) (e : Engine) : (snapshot i e).a = e.reg i.fields.ra := rfl
@[simp] theorem snapshot_b (i : Instr) (e : Engine) : (snapshot i e).b = e.reg i.fields.rb := rfl
@[simp] theorem snapshot_m (i : Instr) (e : Engine) : (snapshot i e).m = e.reg i.fields.rm := rfl
@[simp] theorem snapshot_imm (i : Instr) (e : Engine) : (snapshot i e).imm = i.fields.imm := rfl
@[simp] theorem snapshot_compat (i : Instr) (e : Engine) : (snapshot i e).compat = e.ctrl.mrCompat := rfl

end Sys2Proof.Machine
end

