-- ==== Sys2Proof/Laws/Exec.lean ====
section
/-! SUPPORT. Everything a command can do: one spec lemma for the life of a command, and `exec` seen through it. -/

namespace Sys2Proof.Machine

/-- Only completion points and resets are no steps of the host (10_state.md R20). -/
@[simp] theorem hostStep_eq_false {ev : Event} : ev.hostStep = false ↔ ev = .complete ∨ ev = .reset := by
  cases ev <;> simp [Event.hostStep]

/-- While the engine is idle a command is checked and then fails at once or is accepted (40_command_lifecycle.md R101). -/
theorem runCommand_idle {i : Instr} {check : Snapshot → Option ErrCode} {f : Snapshot → (Nat → Nat) → Completion}
    {s : State} (h : s.engine.status.busy = false) :
    runCommand i check f s =
      match check (snapshot i s.engine) with
      | some code => .next (raiseError code s)
      | none => .next (accept i (snapshot i s.engine) s) := by
  have hb : ¬ s.busy = true := by simp [h]
  exact (if_neg hb).trans (by cases check (snapshot i s.engine) <;> rfl)

/-- While BUSY a command completes from the latched snapshot (40_command_lifecycle.md R106). -/
theorem runCommand_busy {i : Instr} {check : Snapshot → Option ErrCode} {f : Snapshot → (Nat → Nat) → Completion}
    {s : State} (h : s.engine.status.busy = true) :
    runCommand i check f s = .next (complete i.fields.rd (f s.engine.cur.snap s.drawsAhead) s) := by
  simp [runCommand, h]

/-- Every command is `runCommand` over its own check and value. -/
theorem exec_eq_runCommand (i : Instr) (s : State) : exec i s = runCommand i (checkOf i) (resultOf i) s := by
  cases i <;> rfl

/-- A command whose check fails ends at once in that error (40_command_lifecycle.md R104). -/
theorem exec_idle_error {i : Instr} {s : State} {code : ErrCode} (h : s.engine.status.busy = false)
    (hc : checkOf i (snapshot i s.engine) = some code) : exec i s = .next (raiseError code s) := by
  rw [exec_eq_runCommand, runCommand_idle h, hc]

/-- A command whose check passes is accepted (40_command_lifecycle.md R103). -/
theorem exec_idle_accept {i : Instr} {s : State} (h : s.engine.status.busy = false)
    (hc : checkOf i (snapshot i s.engine) = none) : exec i s = .next (accept i (snapshot i s.engine) s) := by
  rw [exec_eq_runCommand, runCommand_idle h, hc]

/-- The latched command completes (40_command_lifecycle.md R106). -/
theorem exec_busy {i : Instr} {s : State} (h : s.engine.status.busy = true) :
    exec i s = .next (complete i.fields.rd (resultOf i s.engine.cur.snap s.drawsAhead) s) := by
  rw [exec_eq_runCommand, runCommand_busy h]

/-- Everything `exec` can do. -/
theorem exec_cases (i : Instr) (s : State) :
    (s.engine.status.busy = true ∧
      exec i s = .next (complete i.fields.rd (resultOf i s.engine.cur.snap s.drawsAhead) s)) ∨
    (s.engine.status.busy = false ∧
      ∃ code, checkOf i (snapshot i s.engine) = some code ∧ exec i s = .next (raiseError code s)) ∨
    (s.engine.status.busy = false ∧ checkOf i (snapshot i s.engine) = none ∧
      exec i s = .next (accept i (snapshot i s.engine) s)) := by
  cases hb : s.engine.status.busy
  · cases hc : checkOf i (snapshot i s.engine) with
    | some code => exact .inr (.inl ⟨rfl, code, rfl, exec_idle_error hb hc⟩)
    | none => exact .inr (.inr ⟨rfl, rfl, exec_idle_accept hb hc⟩)
  · exact .inl ⟨rfl, exec_busy hb⟩

/-- A check answers one of the two value errors (60_exceptions.md R211, R213). -/
theorem checkOf_code {i : Instr} {snap : Snapshot} {code : ErrCode} (h : checkOf i snap = some code) :
    code = .modZero ∨ code = .badArg := by
  cases i <;> simp only [checkOf, noCheck, modulusCheck, montmulCheck, mrroundCheck, isprimeCheck] at h
  case nop | gcd => cases h
  case montmul | mrround => (repeat' split at h) <;> simp_all
  all_goals
    split at h
    · injection h with h; simp [← h]
    · cases h

/-- A completion never sets both verdict flags (10_state.md R31). -/
theorem resultOf_flags (i : Instr) (snap : Snapshot) (draw : Nat → Nat) :
    ((resultOf i snap draw).noinv && (resultOf i snap draw).prime) = false := by
  have hv : ∀ (k : Nat) (v : Verdict), ((verdictResult k v).noinv && (verdictResult k v).prime) = false := by
    intro k v; cases v <;> rfl
  cases i with
  | modinv rd ra rm =>
    simp only [resultOf, modinvResult]
    cases inverse snap.a.toNat snap.m.toNat <;> rfl
  | mrround rd ra rb => exact hv _ _
  | isprime rd ra n => exact hv _ _
  | _ => rfl

end Sys2Proof.Machine
end

