-- ==== Sys2Proof/Laws/Flags.lean ====
section
/-! SUPPORT. The words of CTRL and STATUS, bit by bit, and that the fields of STATUS stay consistent. -/

namespace Sys2Proof.Machine

/-- CTRL reads back what is stored (10_state.md R26, R27). -/
theorem Ctrl.word_bits (c : Ctrl) : c.word[0] = c.ie ∧ c.word[1] = c.mrCompat := by
  obtain ⟨ie, mr⟩ := c
  cases ie <;> cases mr <;> decide

/-- Every bit of CTRL but IE and MR_COMPAT reads as 0 (10_state.md R26). -/
theorem Ctrl.word_reserved (c : Ctrl) : c.word &&& 0xFFFFFFFC = 0 := by
  obtain ⟨ie, mr⟩ := c
  cases ie <;> cases mr <;> decide

/-- STATUS reads back its fields (10_state.md R28). -/
theorem Status.word_bits (st : Status) :
    st.word[0] = st.busy ∧ st.word[1] = st.done ∧ st.word[2] = st.err ∧
    st.word[3] = st.noinv ∧ st.word[4] = st.prime ∧ st.word[5] = st.ovr ∧
    st.word.extractLsb' 8 4 = st.errcode.code := by
  obtain ⟨b, d, e, n, p, o, c⟩ := st
  cases b <;> cases d <;> cases e <;> cases n <;> cases p <;> cases o <;> cases c <;> decide

/-- Every reserved bit of STATUS reads as 0 (10_state.md R28). -/
theorem Status.word_reserved (st : Status) : st.word &&& 0xFFFFF0C0 = 0 := by
  obtain ⟨b, d, e, n, p, o, c⟩ := st
  cases b <;> cases d <;> cases e <;> cases n <;> cases p <;> cases o <;> cases c <;> decide

/-- Clearing the outcome leaves a consistent STATUS. -/
theorem Status.clearOutcome_consistent {st : Status} : st.clearOutcome.Consistent := by
  simp [Status.Consistent]

/-- An error leaves a consistent STATUS, if no verdict stands. -/
theorem Status.failed_consistent {st : Status} {c : ErrCode} (hc : c ≠ .none) (hn : st.noinv = false)
    (hp : st.prime = false) : (st.failed c).Consistent := by
  simp [Status.Consistent, hc, hn, hp]

/-- A W1C keeps STATUS consistent (10_state.md R29). -/
theorem Status.w1c_consistent {st : Status} (v : Word) (h : st.Consistent) : (st.w1c v).Consistent := by
  obtain ⟨h1, h2, h3, h4⟩ := h
  refine ⟨fun hb => ?_, ?_, fun he => h3 (by simp at he; exact he.1), h4⟩
  · obtain ⟨hd, he, hn, hp⟩ := h1 hb
    simp [hd, he, hn, hp]
  · cases hv : v[2]
    · simpa only [Status.w1c_err, Status.w1c_errcode, hv, Bool.not_false, Bool.and_true, Bool.false_eq_true, if_false] using h2
    · simp only [Status.w1c_err, Status.w1c_errcode, hv]
      simp

/-- Setting OVR keeps STATUS consistent. -/
theorem Status.ovr_consistent {st : Status} (h : st.Consistent) : { st with ovr := true }.Consistent := h

end Sys2Proof.Machine
end

