-- ==== Sys2Proof/Laws/Operands.lean ====
section
/-! SUPPORT. The laws of the operand registers, of their limbs and of the address map. -/

namespace Sys2Proof.Machine

/-- Read after write of the same register. -/
@[simp] theorem reg_setReg_same (e : Engine) (r : Reg) (v : Operand) : (e.setReg r v).reg r = v := by
  simp [Engine.reg, Engine.setReg]

/-- A write leaves every other register alone. -/
theorem reg_setReg_ne (e : Engine) {r r' : Reg} (v : Operand) (h : r' ≠ r) : (e.setReg r v).reg r' = e.reg r' := by
  have : r.val ≠ r'.val := fun h' => h (Fin.ext h'.symm)
  simp [Engine.reg, Engine.setReg, this]

/-- A register reads through `setReg` as an if. -/
theorem reg_setReg (e : Engine) (r r' : Reg) (v : Operand) :
    (e.setReg r v).reg r' = if r' = r then v else e.reg r' := by
  split
  · next h => subst h; exact reg_setReg_same e r' v
  · next h => exact reg_setReg_ne e v h

/-- Two register files that read alike are equal. -/
theorem x_ext {x y : Vector Operand 8} (h : ∀ r : Reg, x[r.val] = y[r.val]) : x = y := by
  apply Vector.ext
  intro i hi
  exact h ⟨i, hi⟩

/-- Only `x` and what reads it see a register. -/
@[simp] theorem reg_mk (x : Vector Operand 8) (c : Ctrl) (st : Status) (w : Word) (l : Latched) (r : Reg) :
    (Engine.mk x c st w l).reg r = x[r.val] := rfl

/-- Every register is zero after reset (10_state.md R23). -/
@[simp] theorem reg_reset (r : Reg) : Engine.reset.reg r = 0 := by
  simp [Engine.reset, Engine.reg]

/-- A bit of a limb. -/
theorem getLsbD_limb (x : Operand) (j : Fin 128) (k : Nat) :
    (limb x j).getLsbD k = (decide (k < 32) && x.getLsbD (32 * j.val + k)) := by
  simp [limb]

/-- A bit of an operand one of whose limbs is replaced. -/
theorem getLsbD_setLimb (x : Operand) (j : Fin 128) (v : Word) (k : Nat) (hk : k < 4096) :
    (setLimb x j v).getLsbD k =
      if 32 * j.val ≤ k ∧ k < 32 * j.val + 32 then v.getLsbD (k - 32 * j.val) else x.getLsbD k := by
  simp only [setLimb, BitVec.getLsbD_or, BitVec.getLsbD_and, BitVec.getLsbD_not, BitVec.getLsbD_shiftLeft,
    BitVec.getLsbD_setWidth, BitVec.getLsbD_allOnes]
  by_cases h1 : 32 * j.val ≤ k
  · by_cases h2 : k < 32 * j.val + 32
    · have h3 : k - 32 * j.val < 32 := by omega
      have h4 : k - 32 * j.val < 4096 := by omega
      have h5 : ¬ k < 32 * j.val := by omega
      simp [h1, h2, h3, h4, h5, hk]
    · have h3 : ¬ k - 32 * j.val < 32 := by omega
      have h5 : ¬ k < 32 * j.val := by omega
      simp [h2, h3, h5, hk, BitVec.getLsbD_of_ge v _ (by omega : 32 ≤ k - 32 * j.val)]
  · have h5 : k < 32 * j.val := by omega
    simp [h1, h5, hk]

/-- The replaced limb reads as what was written (20_memory.md R55). -/
@[simp] theorem limb_setLimb_same (x : Operand) (j : Fin 128) (v : Word) : limb (setLimb x j v) j = v := by
  apply BitVec.eq_of_getLsbD_eq
  intro k hk
  have hj := j.isLt
  rw [getLsbD_limb, getLsbD_setLimb _ _ _ _ (by omega)]
  have h1 : 32 * j.val ≤ 32 * j.val + k ∧ 32 * j.val + k < 32 * j.val + 32 := by
    omega
  have h2 : k < 32 := hk
  rw [if_pos h1]
  simp [h2]

/-- The other limbs read as before (20_memory.md R55). -/
theorem limb_setLimb_ne (x : Operand) {j j' : Fin 128} (v : Word) (h : j' ≠ j) :
    limb (setLimb x j v) j' = limb x j' := by
  apply BitVec.eq_of_getLsbD_eq
  intro k hk
  have hj := j'.isLt
  have hne : j'.val ≠ j.val := fun h' => h (Fin.ext h')
  have h2 : k < 32 := hk
  rw [getLsbD_limb, getLsbD_limb, getLsbD_setLimb _ _ _ _ (by omega)]
  rw [if_neg (by omega)]

/-- The map sends the offset of limb j of Xi to that limb (20_memory.md R55). -/
@[simp] theorem target_limbOffset (i : Reg) (j : Fin 128) : target (limbOffset i j) = .limb i j := by
  have hi := i.isLt
  have hj := j.isLt
  have h1 : (limbOffset i j - Config.xBase) / Config.stride = i.val := by
    simp only [limbOffset, Config.xBase, Config.stride]; omega
  have h2 : (limbOffset i j - Config.xBase) % Config.stride / 4 = j.val := by
    simp only [limbOffset, Config.xBase, Config.stride]; omega
  have h3 : 0x1000 ≤ limbOffset i j := by simp only [limbOffset, Config.xBase]; omega
  have h4 : ¬ limbOffset i j < Config.xBase := by simp only [Config.xBase]; omega
  unfold target
  rw [if_neg (by omega), if_neg (by omega), if_neg (by omega), if_neg (by omega), if_neg (by omega), if_neg h4, h1, h2]
  congr 1
  · exact Fin.ext (Nat.mod_eq_of_lt hi)
  · exact Fin.ext (Nat.mod_eq_of_lt hj)

/-- R55's own words for the offset of limb j of Xi. -/
theorem limbOffset_eq (i : Reg) (j : Fin 128) : limbOffset i j = 0x1000 + 0x200 * i.val + 4 * j.val := by
  simp only [limbOffset, Config.xBase, Config.stride]
  omega

/-- Every limb's offset lies in the aperture, aligned. -/
theorem limbOffset_lt (i : Reg) (j : Fin 128) : limbOffset i j < Config.aperture ∧ limbOffset i j % 4 = 0 := by
  have hi := i.isLt
  have hj := j.isLt
  simp only [limbOffset, Config.xBase, Config.stride, Config.aperture] at *
  omega

/-- An aligned offset of the window is the offset of a limb (20_memory.md R55). -/
theorem window_offset {off : Nat} (h1 : Config.xBase ≤ off) (h2 : off < Config.aperture) (h3 : off % 4 = 0) :
    ∃ i j, off = limbOffset i j := by
  simp only [Config.xBase, Config.aperture] at h1 h2
  refine ⟨⟨(off - 0x1000) / 0x200, by omega⟩, ⟨(off - 0x1000) % 0x200 / 4, by omega⟩, ?_⟩
  simp only [limbOffset, Config.xBase, Config.stride]
  omega

/-- The reserved words (20_memory.md R56). -/
theorem target_reserved {off : Nat} (h1 : 0x014 ≤ off) (h2 : off < Config.xBase) : target off = .reserved := by
  unfold target
  rw [if_neg (by omega), if_neg (by omega), if_neg (by omega), if_neg (by omega), if_neg (by omega), if_pos h2]

@[simp] theorem target_id : target 0x000 = .id := rfl
@[simp] theorem target_param : target 0x004 = .param := rfl
@[simp] theorem target_ctrl : target 0x008 = .ctrl := rfl
@[simp] theorem target_status : target 0x00C = .status := rfl
@[simp] theorem target_cmd : target 0x010 = .cmd := rfl

/-- A well-formed access is a 32-bit one at an aligned offset (20_memory.md R53). -/
theorem malformed_eq_false {off : Nat} {width : Width} : malformed off width = false ↔ width = .word ∧ off % 4 = 0 := by
  cases width <;> simp [malformed]

end Sys2Proof.Machine
end

