-- ==== Sys2Proof/Laws/PerInstr.lean ====
section
/-! SUPPORT. The family `EncodedRow`: every command's word hits its row of the opcode map (30_encoding.md R85, R92), one
lemma per command. -/

namespace Sys2Proof.Laws.EncodedRow

/-- The encoded word agrees with its row's match wherever the row's mask is set. -/
def Statement (i : Instr) : Prop := i.row.hits (encode i) = true

/-- A word hits a row that agrees with it bit by bit under the mask. -/
theorem hits_of_bits {r : Row} {v : Word}
    (h : ∀ k < 32, (v.getLsbD k && r.mask.getLsbD k) = r.val.getLsbD k) : r.hits v = true := by
  have : v &&& r.mask = r.val := BitVec.eq_of_getLsbD_eq fun k hk => by rw [BitVec.getLsbD_and, h k hk]
  simpa [Row.hits] using this

theorem nop : Statement .nop := by
  apply hits_of_bits
  intro k hk
  rw [encode, getLsbD_word _ hk]
  interval_cases k <;> simp [Instr.fields, Instr.row, nopRow]

theorem gcd (rd ra rb : Reg) : Statement (.gcd rd ra rb) := by
  apply hits_of_bits
  intro k hk
  rw [encode, getLsbD_word _ hk]
  interval_cases k <;> simp [Instr.fields, Instr.row, gcdRow]

theorem modinv (rd ra rm : Reg) : Statement (.modinv rd ra rm) := by
  apply hits_of_bits
  intro k hk
  rw [encode, getLsbD_word _ hk]
  interval_cases k <;> simp [Instr.fields, Instr.row, modinvRow]

theorem modexp (rd ra rb rm : Reg) : Statement (.modexp rd ra rb rm) := by
  apply hits_of_bits
  intro k hk
  rw [encode, getLsbD_word _ hk]
  interval_cases k <;> simp [Instr.fields, Instr.row, modexpRow]

theorem modmul (rd ra rb rm : Reg) : Statement (.modmul rd ra rb rm) := by
  apply hits_of_bits
  intro k hk
  rw [encode, getLsbD_word _ hk]
  interval_cases k <;> simp [Instr.fields, Instr.row, modmulRow]

theorem modred (rd ra rm : Reg) : Statement (.modred rd ra rm) := by
  apply hits_of_bits
  intro k hk
  rw [encode, getLsbD_word _ hk]
  interval_cases k <;> simp [Instr.fields, Instr.row, modredRow]

theorem montmul (rd ra rb rm : Reg) : Statement (.montmul rd ra rb rm) := by
  apply hits_of_bits
  intro k hk
  rw [encode, getLsbD_word _ hk]
  interval_cases k <;> simp [Instr.fields, Instr.row, montmulRow]

theorem mrround (rd ra rb : Reg) : Statement (.mrround rd ra rb) := by
  apply hits_of_bits
  intro k hk
  rw [encode, getLsbD_word _ hk]
  interval_cases k <;> simp [Instr.fields, Instr.row, mrroundRow]

theorem isprime (rd ra : Reg) (iters : Nat) : Statement (.isprime rd ra iters) := by
  apply hits_of_bits
  intro k hk
  rw [encode, getLsbD_word _ hk]
  interval_cases k <;> simp [Instr.fields, Instr.row, isprimeRow]

end Sys2Proof.Laws.EncodedRow
end

