-- ==== Sys2Proof/Laws/Step.lean ====
section
/-! SUPPORT. What one step can do, one lemma per input. -/

namespace Sys2Proof.Machine

theorem step_nil {s : State} (h : s.schedule = []) : step s = engineStep s := by
  simp [step, h]

theorem step_cons {s : State} {ev : Event} {rest : List Event} (h : s.schedule = ev :: rest) :
    step s = runEvent ev { s with schedule := rest } := by
  simp [step, h]

@[simp] theorem runEvent_read (off : Nat) (width : Width) (s : State) : runEvent (.read off width) s = busRead off width s := rfl
@[simp] theorem runEvent_write (off : Nat) (width : Width) (v : Word) (s : State) :
    runEvent (.write off width v) s = busWrite off width v s := rfl
@[simp] theorem runEvent_complete (s : State) : runEvent .complete s = engineStep s := rfl
@[simp] theorem runEvent_reset (s : State) : runEvent .reset s = .next (resetEngine s) := rfl

/-- The completion step is not enabled while idle (10_state.md R20). -/
theorem engineStep_idle {s : State} (h : s.engine.status.busy = false) : engineStep s = .next s := by
  simp [engineStep, h]

/-- While BUSY the completion step completes the latched command (40_command_lifecycle.md R106). -/
theorem engineStep_busy {s : State} (h : s.engine.status.busy = true) :
    engineStep s = .next (complete s.engine.cur.cmd.fields.rd
      (resultOf s.engine.cur.cmd s.engine.cur.snap s.drawsAhead) s) := by
  simp only [engineStep, State.busy, h, if_true]
  exact exec_busy h

/-- Beyond the aperture nothing is decoded (20_memory.md R56). -/
theorem busRead_outside {off : Nat} {width : Width} {s : State} (h : Config.aperture ≤ off) :
    busRead off width s = .fault (.outsideAperture off) := by
  unfold busRead; rw [if_pos h]

theorem busWrite_outside {off : Nat} {width : Width} {v : Word} {s : State} (h : Config.aperture ≤ off) :
    busWrite off width v s = .fault (.outsideAperture off) := by
  unfold busWrite; rw [if_pos h]

/-- A malformed read gets ERROR and changes nothing (20_memory.md R53). -/
theorem busRead_malformed {off : Nat} {width : Width} {s : State} (h : off < Config.aperture)
    (hm : malformed off width = true) : busRead off width s = .next (respond .busError s) := by
  unfold busRead; rw [if_neg (by omega), if_pos hm]

theorem busWrite_malformed {off : Nat} {width : Width} {v : Word} {s : State} (h : off < Config.aperture)
    (hm : malformed off width = true) : busWrite off width v s = .next (respond .busError s) := by
  unfold busWrite; rw [if_neg (by omega), if_pos hm]

/-- An aligned 32-bit read answers its word and leaves the engine alone (20_memory.md R52, R59). -/
theorem busRead_word {off : Nat} {s : State} (h : off < Config.aperture) (ha : off % 4 = 0) :
    busRead off .word s = .next { s with
      response := .data (readWord s.engine (Config.busyReadWord s.draws) (target off))
      draws := s.draws + readDraws s.engine (target off) } := by
  unfold busRead
  rw [if_neg (by omega), if_neg (by simp [malformed_eq_false.mpr ⟨rfl, ha⟩])]

/-- An aligned 32-bit write acts on its word (20_memory.md R52). -/
theorem busWrite_word {off : Nat} {v : Word} {s : State} (h : off < Config.aperture) (ha : off % 4 = 0) :
    busWrite off .word v s = writeWord v (respond .okay s) (target off) := by
  unfold busWrite
  rw [if_neg (by omega), if_neg (by simp [malformed_eq_false.mpr ⟨rfl, ha⟩])]

/-- A CMD write while BUSY is ignored, apart from OVR (40_command_lifecycle.md R105). -/
theorem submitWord_busy {v : Word} {s : State} (h : s.engine.status.busy = true) :
    submitWord v s = .next (setOvr s) := by
  simp [submitWord, h]

/-- An illegal word ends at once in ILLEGAL_CMD (30_encoding.md R87). -/
theorem submitWord_illegal {v : Word} {s : State} (h : s.engine.status.busy = false) (hd : decode v = none) :
    submitWord v s = .next (raiseError .illegalCmd (beginCommand v s)) := by
  simp [submitWord, h, hd]

/-- A legal word is the command's to run (40_command_lifecycle.md R101). -/
theorem submitWord_legal {v : Word} {i : Instr} {s : State} (h : s.engine.status.busy = false)
    (hd : decode v = some i) : submitWord v s = exec i (beginCommand v s) := by
  simp [submitWord, h, hd]

/-- A CTRL write with SRST is the soft reset (10_state.md R27). -/
theorem writeCtrl_srst {v : Word} {s : State} (h : v[3] = true) : writeCtrl v s = resetEngine s := by
  unfold writeCtrl; rw [if_pos h]

/-- A CTRL write without SRST (10_state.md R27). -/
theorem writeCtrl_plain {v : Word} {s : State} (h : v[3] = false) :
    writeCtrl v s =
      if v[2] && s.engine.status.busy then abort (s.withEngine { s.engine with ctrl := .ofWord v })
      else s.withEngine { s.engine with ctrl := .ofWord v } := by
  unfold writeCtrl; rw [if_neg (by simp [h])]

theorem writeLimb_busy {i : Reg} {j : Fin 128} {v : Word} {s : State} (h : s.engine.status.busy = true) :
    writeLimb i j v s = setOvr s := by
  simp [writeLimb, h]

theorem writeLimb_idle {i : Reg} {j : Fin 128} {v : Word} {s : State} (h : s.engine.status.busy = false) :
    writeLimb i j v s = s.withEngine (s.engine.setReg i (setLimb (s.engine.reg i) j v)) := by
  simp [writeLimb, h]

/-- Everything a read can do: outside the aperture it stops the machine, inside it answers and leaves the engine alone. -/
theorem busRead_cases (off : Nat) (width : Width) (s : State) :
    (Config.aperture ≤ off ∧ busRead off width s = .fault (.outsideAperture off)) ∨
    (off < Config.aperture ∧ ∃ r d, busRead off width s = .next { s with response := r, draws := d }) := by
  by_cases h : Config.aperture ≤ off
  · exact .inl ⟨h, busRead_outside h⟩
  · refine .inr ⟨by omega, ?_⟩
    cases hm : malformed off width
    · obtain ⟨rfl, ha⟩ := malformed_eq_false.mp hm
      exact ⟨_, _, busRead_word (by omega) ha⟩
    · exact ⟨_, s.draws, busRead_malformed (by omega) hm⟩

/-- Everything a write can do. -/
theorem busWrite_cases (off : Nat) (width : Width) (v : Word) (s : State) :
    (Config.aperture ≤ off ∧ busWrite off width v s = .fault (.outsideAperture off)) ∨
    (off < Config.aperture ∧ malformed off width = true ∧ busWrite off width v s = .next (respond .busError s)) ∨
    (off < Config.aperture ∧ malformed off width = false ∧
      busWrite off width v s = writeWord v (respond .okay s) (target off)) := by
  by_cases h : Config.aperture ≤ off
  · exact .inl ⟨h, busWrite_outside h⟩
  · cases hm : malformed off width
    · obtain ⟨rfl, ha⟩ := malformed_eq_false.mp hm
      exact .inr (.inr ⟨by omega, rfl, busWrite_word (by omega) ha⟩)
    · exact .inr (.inl ⟨by omega, rfl, busWrite_malformed (by omega) hm⟩)

/-! The next input is one of the known words. -/

theorem step_complete {s : State} {rest : List Event} (hs : s.schedule = .complete :: rest) :
    step s = engineStep { s with schedule := rest } := by
  rw [step_cons hs, runEvent_complete]

theorem step_reset {s : State} {rest : List Event} (hs : s.schedule = .reset :: rest) :
    step s = .next (resetEngine { s with schedule := rest }) := by
  rw [step_cons hs, runEvent_reset]

theorem step_ctrl {s : State} {v : Word} {rest : List Event} (hs : s.schedule = .write 0x008 .word v :: rest) :
    step s = .next (writeCtrl v (respond .okay { s with schedule := rest })) := by
  rw [step_cons hs, runEvent_write, busWrite_word (by decide) (by decide), target_ctrl]
  rfl

theorem step_status {s : State} {v : Word} {rest : List Event} (hs : s.schedule = .write 0x00C .word v :: rest) :
    step s = .next (writeStatus v (respond .okay { s with schedule := rest })) := by
  rw [step_cons hs, runEvent_write, busWrite_word (by decide) (by decide), target_status]
  rfl

theorem step_cmd {s : State} {v : Word} {rest : List Event} (hs : s.schedule = .write 0x010 .word v :: rest) :
    step s = submitWord v (respond .okay { s with schedule := rest }) := by
  rw [step_cons hs, runEvent_write, busWrite_word (by decide) (by decide), target_cmd]
  rfl

theorem step_cmd_busy {s : State} {v : Word} {rest : List Event} (hb : s.engine.status.busy = true)
    (hs : s.schedule = .write 0x010 .word v :: rest) :
    step s = .next (setOvr (respond .okay { s with schedule := rest })) :=
  (step_cmd hs).trans (submitWord_busy hb)

theorem step_cmd_illegal {s : State} {v : Word} {rest : List Event} (hb : s.engine.status.busy = false)
    (hs : s.schedule = .write 0x010 .word v :: rest) (hd : decode v = none) :
    step s = .next (raiseError .illegalCmd (beginCommand v (respond .okay { s with schedule := rest }))) :=
  (step_cmd hs).trans (submitWord_illegal hb hd)

theorem step_cmd_legal {s : State} {v : Word} {i : Instr} {rest : List Event} (hb : s.engine.status.busy = false)
    (hs : s.schedule = .write 0x010 .word v :: rest) (hd : decode v = some i) :
    step s = exec i (beginCommand v (respond .okay { s with schedule := rest })) :=
  (step_cmd hs).trans (submitWord_legal hb hd)

theorem step_limb {s : State} {i : Reg} {j : Fin 128} {v : Word} {rest : List Event}
    (hs : s.schedule = .write (limbOffset i j) .word v :: rest) :
    step s = .next (writeLimb i j v (respond .okay { s with schedule := rest })) := by
  rw [step_cons hs, runEvent_write, busWrite_word (limbOffset_lt i j).1 (limbOffset_lt i j).2, target_limbOffset]
  rfl

theorem step_read {s : State} {off : Nat} {rest : List Event} (hs : s.schedule = .read off .word :: rest)
    (h : off < Config.aperture) (ha : off % 4 = 0) :
    step s = .next { s with
      schedule := rest
      response := .data (readWord s.engine (Config.busyReadWord s.draws) (target off))
      draws := s.draws + readDraws s.engine (target off) } := by
  rw [step_cons hs, runEvent_read, busRead_word h ha]

/-- `exec` always answers a next state: no command stops (60_exceptions.md R210). -/
theorem exec_next (i : Instr) (s : State) : ∃ t, exec i s = .next t := by
  rcases exec_cases i s with ⟨_, h⟩ | ⟨_, _, _, h⟩ | ⟨_, _, h⟩ <;> exact ⟨_, h⟩

/-- `exec` leaves the inputs to come and the last response alone. -/
theorem exec_env {i : Instr} {s t : State} (h : exec i s = .next t) :
    t.schedule = s.schedule ∧ t.response = s.response := by
  rcases exec_cases i s with ⟨_, h'⟩ | ⟨_, _, _, h'⟩ | ⟨_, _, h'⟩ <;>
    rw [h'] at h <;> injection h with h <;> subst h <;> exact ⟨rfl, rfl⟩

end Sys2Proof.Machine
end

