-- ==== Sys2Proof/Laws/Run.lean ====
section
/-! SUPPORT. What one step can do to the engine, said once, and runs of several steps. -/

namespace Sys2Proof.Machine

/-- A completion writes no register but X[rd] (10_state.md R22). -/
theorem writeOut_reg_ne (e : Engine) (rd r : Reg) (o : Option Nat) (h : r ≠ rd) : (e.writeOut rd o).reg r = e.reg r := by
  cases o
  · rfl
  · exact reg_setReg_ne _ _ h

/-- Only ISPRIME draws (43_primality.md R186). -/
theorem drawn_eq_zero (i : Instr) (h : ∀ rd ra n, i ≠ .isprime rd ra n) (snap d) : (resultOf i snap d).drawn = 0 := by
  cases i
  case isprime rd ra n => exact absurd rfl (h rd ra n)
  case modinv => simp only [resultOf, modinvResult]; split <;> rfl
  case mrround => simp only [resultOf, mrroundResult]; cases mrRound _ _ <;> rfl
  all_goals rfl

/-- Only ISPRIME depends on the draws (43_primality.md R186). -/
theorem resultOf_draw (i : Instr) (h : ∀ rd ra n, i ≠ .isprime rd ra n) (snap d d') : resultOf i snap d = resultOf i snap d' := by
  cases i
  case isprime rd ra n => exact absurd rfl (h rd ra n)
  all_goals rfl

/-- Everything a step can do to the engine: nothing; the completion of the latched command; a reset; a CTRL write, with or
without an abort; a STATUS write; OVR; a limb write; a command's immediate error; a command's acceptance. -/
theorem step_engine {s t : State} (h : step s = .next t) :
    t.engine = s.engine ∨
    (s.engine.status.busy = true ∧ (s.schedule = [] ∨ ∃ rest, s.schedule = .complete :: rest) ∧
      ∃ d, t.engine =
        (complete s.engine.cur.cmd.fields.rd (resultOf s.engine.cur.cmd s.engine.cur.snap d) s).engine) ∨
    (t.engine = Engine.reset ∧ ((∃ rest, s.schedule = .reset :: rest) ∨
      ∃ v rest, v[3] = true ∧ s.schedule = .write 0x008 .word v :: rest)) ∨
    (∃ v rest, s.schedule = .write 0x008 .word v :: rest ∧ v[3] = false ∧
      (t.engine = { s.engine with ctrl := .ofWord v } ∨
        (v[2] = true ∧ s.engine.status.busy = true ∧
          t.engine = { s.engine with ctrl := .ofWord v, status := s.engine.status.failed .aborted }))) ∨
    (∃ v rest, s.schedule = .write 0x00C .word v :: rest ∧
      t.engine = { s.engine with status := s.engine.status.w1c v }) ∨
    (s.engine.status.busy = true ∧ t.engine = { s.engine with status := { s.engine.status with ovr := true } } ∧
      ∃ off v rest, s.schedule = .write off .word v :: rest ∧ (off = 0x010 ∨ 0x1000 ≤ off ∧ off < 0x2000)) ∨
    (s.engine.status.busy = false ∧ ∃ i j v rest, s.schedule = .write (limbOffset i j) .word v :: rest ∧
      t.engine = s.engine.setReg i (setLimb (s.engine.reg i) j v)) ∨
    (s.engine.status.busy = false ∧ ∃ v rest c, s.schedule = .write 0x010 .word v :: rest ∧
      (c = .illegalCmd ∨ c = .modZero ∨ c = .badArg) ∧
      t.engine = { s.engine with lastCmd := v, status := s.engine.status.clearOutcome.failed c }) ∨
    (s.engine.status.busy = false ∧ ∃ v rest i, s.schedule = .write 0x010 .word v :: rest ∧ decode v = some i ∧
      checkOf i (snapshot i s.engine) = none ∧
      t.engine = { s.engine with
        lastCmd := v, cur := ⟨i, snapshot i s.engine⟩, status := { s.engine.status.clearOutcome with busy := true } }) := by
  have comp : ∀ {u : State}, u.engine = s.engine → (s.schedule = [] ∨ ∃ rest, s.schedule = .complete :: rest) → engineStep u = .next t → (t.engine = s.engine) ∨
    (s.engine.status.busy = true ∧ (s.schedule = [] ∨ ∃ rest, s.schedule = .complete :: rest) ∧
      ∃ d, t.engine = (complete s.engine.cur.cmd.fields.rd (resultOf s.engine.cur.cmd s.engine.cur.snap d) s).engine) := by
    intro u hu hs h
    cases hb : s.engine.status.busy
    · rw [engineStep_idle (by rw [hu]; exact hb)] at h; injection h with h; subst h; exact .inl hu
    · rw [engineStep_busy (by rw [hu]; exact hb)] at h; injection h with h; subst h
      refine .inr ⟨rfl, hs, u.drawsAhead, ?_⟩
      simp [hu]
  cases hs : s.schedule with
  | nil =>
    rw [step_nil hs] at h
    rcases comp rfl (.inl hs) h with h | h
    · exact .inl h
    · rw [hs] at h; exact .inr (.inl h)
  | cons ev rest =>
    rw [step_cons hs] at h
    cases ev with
    | complete =>
      rcases comp (u := { s with schedule := rest }) rfl (.inr ⟨rest, hs⟩) h with h | h
      · exact .inl h
      · rw [hs] at h; exact .inr (.inl h)
    | reset => injection h with h; subst h; exact .inr (.inr (.inl ⟨rfl, .inl ⟨rest, rfl⟩⟩))
    | read off width =>
      rcases busRead_cases off width { s with schedule := rest } with ⟨_, h'⟩ | ⟨_, r, d, h'⟩
      · rw [runEvent_read, h'] at h; cases h
      · rw [runEvent_read, h'] at h; injection h with h; subst h; exact .inl rfl
    | write off width v =>
      rw [runEvent_write] at h
      rcases busWrite_cases off width v { s with schedule := rest } with ⟨_, h'⟩ | ⟨_, _, h'⟩ | ⟨ho, hm, h'⟩
      · rw [h'] at h; cases h
      · rw [h'] at h; injection h with h; subst h; exact .inl rfl
      · obtain ⟨rfl, ha⟩ := malformed_eq_false.mp hm
        rw [h'] at h
        by_cases hw : Config.xBase ≤ off
        · obtain ⟨i, j, rfl⟩ := window_offset hw ho ha
          rw [target_limbOffset] at h
          injection h with h; subst h
          cases hb : s.engine.status.busy
          · right; right; right; right; right; right; left
            refine ⟨rfl, i, j, v, rest, rfl, ?_⟩
            rw [writeLimb_idle (by exact hb)]; rfl
          · right; right; right; right; right; left
            refine ⟨rfl, ?_, _, v, rest, rfl, .inr ⟨hw, ho⟩⟩
            rw [writeLimb_busy (by exact hb)]; rfl
        · by_cases h0 : off = 0
          · subst h0; injection h with h; subst h; exact .inl rfl
          by_cases h4 : off = 4
          · subst h4; injection h with h; subst h; exact .inl rfl
          by_cases h8 : off = 8
          · subst h8
            injection h with h; subst h
            cases h3 : v[3]
            · right; right; right; left
              refine ⟨v, rest, rfl, h3, ?_⟩
              rw [writeCtrl_plain h3]
              by_cases hc : (v[2] && s.engine.status.busy) = true
              · rw [if_pos (by exact hc)]
                rw [Bool.and_eq_true] at hc
                exact .inr ⟨hc.1, hc.2, rfl⟩
              · rw [if_neg (by exact hc)]; exact .inl rfl
            · right; right; left
              rw [writeCtrl_srst h3]
              exact ⟨rfl, .inr ⟨v, rest, h3, rfl⟩⟩
          by_cases hC : off = 12
          · subst hC; injection h with h; subst h
            right; right; right; right; left
            exact ⟨v, rest, rfl, rfl⟩
          by_cases h10 : off = 16
          · subst h10
            rw [target_cmd] at h
            simp only [writeWord] at h
            cases hb : s.engine.status.busy
            · right; right; right; right; right; right; right
              cases hd : decode v with
              | none =>
                rw [submitWord_illegal (by exact hb) hd] at h; injection h with h; subst h
                exact .inl ⟨rfl, v, rest, .illegalCmd, rfl, .inl rfl, rfl⟩
              | some i =>
                rw [submitWord_legal (by exact hb) hd] at h
                rcases exec_cases i (beginCommand v (respond .okay { s with schedule := rest })) with ⟨h', _⟩ | ⟨_, c, hc, h'⟩ | ⟨_, hc, h'⟩
                · simp [hb] at h'
                · rw [h'] at h; injection h with h; subst h
                  exact .inl ⟨rfl, v, rest, c, rfl, .inr (checkOf_code hc), rfl⟩
                · rw [h'] at h; injection h with h; subst h
                  exact .inr ⟨rfl, v, rest, i, rfl, hd, hc, rfl⟩
            · rw [submitWord_busy (by exact hb)] at h; injection h with h; subst h
              right; right; right; right; right; left
              exact ⟨rfl, rfl, _, v, rest, rfl, .inl rfl⟩
          · rw [target_reserved (by omega) (by omega)] at h
            injection h with h; subst h; exact .inl rfl

theorem run_succ {s t : State} {n : Nat} (h : step s = .next t) : Host.Core.run core (n+1) s = Host.Core.run core n t := by
  have h' : core.step s = .next t := h
  simp only [Host.Core.run, h']

theorem run_two {s t u : State} (h1 : step s = .next t) (h2 : step t = .next u) : Host.Core.run core 2 s = .next u := by
  rw [run_succ h1, run_succ h2]; rfl

/-- A run and one step more. -/
theorem run_last {n : Nat} {s t u : State} (h1 : Host.Core.run core n s = .next t) (h2 : step t = .next u) :
    Host.Core.run core (n + 1) s = .next u := by
  induction n generalizing s with
  | zero =>
    have h0 : (Host.Outcome.next s : Host.Outcome State Fault Refusal) = .next t := h1
    injection h0 with h0
    subst h0
    rw [run_succ h2]; rfl
  | succ n ih =>
    cases hs : step s with
    | next v => rw [run_succ hs] at h1 ⊢; exact ih h1
    | fault r =>
      have h' : core.step s = .fault r := hs
      simp only [Host.Core.run, h'] at h1
      cases h1
    | refused r =>
      have h' : core.step s = .refused r := hs
      simp only [Host.Core.run, h'] at h1
      cases h1

end Sys2Proof.Machine
end

