-- ==== Sys2Proof/Tests/Slice0.lean ====
section
/-! SUPPORT. The model's own tests: words and values from 95_test_vectors.md, one step each, and for every obligation with
hypotheses a witness that meets them. -/

namespace Sys2Proof.Tests

set_option Elab.async false

open Sys2Proof Sys2Proof.Machine

/-- The engine after reset, but for X0 = a, X1 = b, X2 = m. -/
def loaded (a b m : Nat) : Engine :=
  ((Engine.reset.setReg 0 (BitVec.ofNat 4096 a)).setReg 1 (BitVec.ofNat 4096 b)).setReg 2 (BitVec.ofNat 4096 m)

/-- An idle engine with the given inputs to come. -/
def idle (evs : List Event) (a b m : Nat) : State := { State.reset with engine := loaded a b m, schedule := evs }

/-- The snapshot of X0, X1, X2 and an immediate. -/
def snap (a b m imm : Nat) (compat : Bool) : Snapshot :=
  ⟨BitVec.ofNat 4096 a, BitVec.ofNat 4096 b, BitVec.ofNat 4096 m, imm, compat⟩

/-- An engine that has accepted `i` with the snapshot `sn`, every register 0 and the given inputs to come. -/
def running (evs : List Event) (i : Instr) (sn : Snapshot) : State :=
  { State.reset with
    engine := { Engine.reset with
      status := { Engine.reset.status with busy := true }, lastCmd := encode i, cur := ⟨i, sn⟩ }
    schedule := evs }

/-- An idle engine with a given STATUS and CTRL. -/
def standing (evs : List Event) (st : Status) (c : Ctrl) : State :=
  { State.reset with engine := { Engine.reset with status := st, ctrl := c }, schedule := evs }

/-- A step ends in a next state that passes `p`. -/
def ends (r : Result) (p : State → Bool) : Bool :=
  match r with
  | .next t => p t
  | .fault _ => false
  | .refused _ => false

/-- A step leaves X3 = v and STATUS as given. -/
def leaves (r : Result) (v : Nat) (status : Word) : Bool :=
  ends r fun t => (t.engine.reg 3).toNat == v && t.engine.status.word == status

/-- A step leaves STATUS as given and every X register as `loaded` put it. -/
def leavesStatus (r : Result) (a b m : Nat) (status : Word) : Bool :=
  ends r fun t => t.engine.x == (loaded a b m).x && t.engine.status.word == status

/-- A step answers the bus with `v`. -/
def answers (r : Result) (v : Word) : Bool := ends r fun t => t.response == .data v

/-! ### Well-formedness: each check refuses an ill-formed term (30_encoding.md R88, R93) -/

theorem test_isprime_count_beyond_imm_is_ill_formed : (Instr.isprime 1 0 4096).wellFormedWith true = false := by decide
theorem test_montmul_without_option_is_ill_formed : (Instr.montmul 3 0 1 2).wellFormedWith false = false := by decide

/-! ### Decoding: the words of 95_test_vectors.md section 2, written out from the fields of 30_encoding.md R81 -/

theorem test_decode_nop : decode 0x00000000 = some .nop := by decide
theorem test_decode_gcd : decode (0x01 ||| 4 <<< 6 ||| 1 <<< 9 ||| 2 <<< 12) = some (.gcd 4 1 2) := by decide
theorem test_decode_gcd_all_sevens : decode 0x00007FC1 = some (.gcd 7 7 7) := by decide
theorem test_decode_modinv : decode 0x00020782 = some (.modinv 6 3 4) := by decide
theorem test_decode_modexp : decode 0x0003B043 = some (.modexp 1 0 3 7) := by decide
theorem test_decode_modexp_all_sevens : decode 0x0003FFC3 = some (.modexp 7 7 7 7) := by decide
theorem test_decode_modmul : decode 0x000110C4 = some (.modmul 3 0 1 2) := by decide
theorem test_decode_modred : decode 0x00030B45 = some (.modred 5 5 6) := by decide
theorem test_decode_montmul : decode 0x00016946 = some (.montmul 5 4 6 2) := by decide
theorem test_decode_mrround : decode 0x00001088 = some (.mrround 2 0 1) := by decide
theorem test_decode_isprime_largest : decode 0xFFF00049 = some (.isprime 1 0 4095) := by decide
theorem test_decode_isprime_zero : decode 0x00000049 = some (.isprime 1 0 0) := by decide

theorem test_illegal_words :
    ([0x00000007, 0x0000000A, 0x0000003F, 0x00000040, 0x0000A301, 0x00009082, 0x000510C3, 0x03280049, 0x001110C3] :
      List Word).all (fun v => decode v == none) = true := by decide

theorem test_decode_table_word : decodeTableWord 32 0x03200049 = some (.isprime 1 0 50) := by decide

/-! ### The assembler and the host's notation (30_encoding.md R93 to R96) -/

theorem test_assemble_isprime : assemble "isprime x1, X0, #0x32".toList = some 0x03200049 := by decide +kernel
theorem test_assemble_encblk : assemble "ENCBLK x1, x0, x3, x7".toList = some 0x0003B043 := by decide +kernel
theorem test_assemble_frommont : assemble "FROMMONT x5, x4, x6, x2".toList = some 0x00016946 := by decide +kernel
theorem test_assemble_modsqr : assemble "MODSQR x3, x0, x2".toList = some 0x000100C4 := by decide +kernel
theorem test_assemble_refuses_large_count : assemble "ISPRIME x1, x0, #4096".toList = none := by decide +kernel
theorem test_wrx_writes_limb_zero_first : (wrx 3 0x1122334455667788).take 2 =
    [w32 0x1600 0x55667788, w32 0x1604 0x11223344] := by decide +kernel

/-! ### Bus and registers: 95_test_vectors.md section 3 -/

theorem test_id : answers (step (idle [r32 0x000] 0 0 0)) 0x4D455831 = true := by decide +kernel
theorem test_param : answers (step (idle [r32 0x004] 0 0 0)) 0x01080080 = true := by decide +kernel
theorem test_last_reserved_word : answers (step (idle [r32 0xFFC] 1 0 0)) 0 = true := by decide +kernel
theorem test_first_window_word : answers (step (idle [r32 0x1000] 0xDEADBEEF 0 0)) 0xDEADBEEF = true := by decide +kernel
theorem test_misaligned_read : ends (step (idle [r32 0x002] 0 0 0)) (fun t => t.response == .busError) = true := by decide +kernel
theorem test_byte_write : ends (step (idle [.write 0x1000 .byte 0xFF] 5 0 0))
    (fun t => t.response == .busError && (t.engine.reg 0).toNat == 5) = true := by decide +kernel
theorem test_ctrl_write : ends (step (idle [w32 0x008 0xFFFFFFF7] 0 0 0)) (fun t => t.engine.ctrl.word == 0x3) = true := by
  decide +kernel
theorem test_soft_reset : ends (step (idle [w32 0x008 0x0000000B] 1 2 3)) (fun t => t.engine == Engine.reset) = true := by
  decide +kernel
theorem test_status_write_keeps_prime :
    leavesStatus (step (standing [w32 0x00C 0xFFFFFFFF] ⟨false, true, false, false, true, false, .none⟩ ⟨false, false⟩))
      0 0 0 0x00000010 = true := by decide +kernel
theorem test_status_write_err_keeps_done :
    leavesStatus (step (standing [w32 0x00C 0x4] ⟨false, true, true, false, false, false, .badArg⟩ ⟨false, false⟩))
      0 0 0 0x00000002 = true := by decide +kernel
theorem test_limb_5_of_x3 : ends (step (idle [w32 0x1614 0xDEADBEEF] 0 0 0))
    (fun t => (t.engine.reg 3).toNat == 0xDEADBEEF * 2 ^ 160) = true := by decide +kernel
theorem test_last_word_of_aperture : ends (step (idle [w32 0x1FFC 0x80000000] 0 0 0))
    (fun t => t.engine.reg 7 == 1 <<< 4095) = true := by decide +kernel
theorem test_beyond_aperture : step (idle [r32 0x2000] 0 0 0) = .fault (.outsideAperture 0x2000) := by rfl
theorem test_window_write_while_busy :
    leavesStatus (step (running [w32 0x1000 7] .nop (snap 0 0 0 0 false))) 0 0 0 0x00000021 = true := by decide +kernel
theorem test_cmd_write_while_busy : ends (step (running [w32 0x010 0x7] (.gcd 4 1 2) (snap 0 0 0 0 false)))
    (fun t => t.engine.status.word == 0x00000021 && t.engine.lastCmd == 0x00002301) = true := by decide +kernel
theorem test_abort : leavesStatus (step (running [w32 0x008 0x4] .nop (snap 0 0 0 0 false))) 0 0 0 0x00000406 = true := by
  decide +kernel
theorem test_irq_level : (standing [] ⟨false, true, false, false, false, false, .none⟩ ⟨true, false⟩).engine.irq = true ∧
    (standing [] ⟨false, false, false, false, false, true, .none⟩ ⟨true, false⟩).engine.irq = false := by decide +kernel

/-! ### Submission: the errors found at accept -/

theorem test_illegal_word_before_mod_zero :
    leavesStatus (step (idle [w32 0x010 0x00009082] 1 0 0)) 1 0 0 0x00000106 = true := by decide +kernel
theorem test_modexp_mod_zero :
    leavesStatus (step (idle [w32 0x010 0x000110C3] 1 2 0)) 1 2 0 0x00000206 = true := by decide +kernel
theorem test_montmul_mod_zero_before_badarg :
    leavesStatus (step (idle [w32 0x010 0x000110C6] 5 5 0)) 5 5 0 0x00000206 = true := by decide +kernel
theorem test_montmul_operand_too_large :
    leavesStatus (step (idle [w32 0x010 0x000110C6] 3233 1 3233)) 3233 1 3233 0x00000306 = true := by decide +kernel
theorem test_mrround_witness_too_large :
    leavesStatus (step (idle [w32 0x010 0x00001088] 2047 2046 0)) 2047 2046 0 0x00000306 = true := by decide +kernel
theorem test_isprime_no_round :
    leavesStatus (step (idle [w32 0x010 0x00000049] 5 0 0)) 5 0 0 0x00000306 = true := by decide +kernel
theorem test_first_step_after_reset_runs_the_word :
    ends (step (State.reset.withFetchWord 32 0x00000001)) (fun t => t.engine.cur.cmd == .gcd 0 0 0 && t.busy) = true := by
  decide +kernel

/-! ### Completion: 95_test_vectors.md section 4 -/

theorem test_nop : leavesStatus (step (running [] .nop (snap 0 0 0 0 false))) 0 0 0 0x00000002 = true := by decide +kernel
theorem test_gcd : leaves (step (running [] (.gcd 3 0 1) (snap 60 52 0 0 false))) 4 0x00000002 = true := by decide +kernel
theorem test_gcd_zero : leaves (step (running [] (.gcd 3 0 1) (snap 0 0 0 0 false))) 0 0x00000002 = true := by decide +kernel
theorem test_modinv : leaves (step (running [] (.modinv 3 0 2) (snap 17 0 780 0 false))) 413 0x00000002 = true := by
  decide +kernel
theorem test_modinv_none : leaves (step (running [] (.modinv 3 0 2) (snap 6 0 9 0 false))) 0 0x0000000A = true := by
  decide +kernel
theorem test_modexp : leaves (step (running [] (.modexp 3 0 1 2) (snap 65 17 3233 0 false))) 2790 0x00000002 = true := by
  decide +kernel
theorem test_modexp_mod_one : leaves (step (running [] (.modexp 3 0 1 2) (snap 7 0 1 0 false))) 0 0x00000002 = true := by
  decide +kernel
theorem test_modmul : leaves (step (running [] (.modmul 3 0 1 2) (snap 2790 2790 3233 0 false))) 2269 0x00000002 = true := by
  decide +kernel
theorem test_modmul_full_width :
    leaves (step (running [] (.modmul 3 0 1 2) (snap (2 ^ 4096 - 2) (2 ^ 4096 - 2) (2 ^ 4096 - 1) 0 false))) 1 0x00000002 =
      true := by decide +kernel
theorem test_modred : leaves (step (running [] (.modred 3 0 2) (snap 10000 0 3233 0 false))) 301 0x00000002 = true := by
  decide +kernel
theorem test_montmul : leaves (step (running [] (.montmul 3 0 1 2) (snap 65 3229 3233 0 false))) 393 0x00000002 = true := by
  decide +kernel
theorem test_montmul_full_width :
    leaves (step (running [] (.montmul 3 0 1 2) (snap 5 7 (2 ^ 4096 - 1) 0 false))) 35 0x00000002 = true := by
  decide +kernel
theorem test_mrround_liar : leaves (step (running [] (.mrround 3 0 1) (snap 2047 2 0 0 false))) 1 0x00000012 = true := by
  decide +kernel
theorem test_mrround_reaches_one : leaves (step (running [] (.mrround 3 0 1) (snap 561 2 0 0 false))) 0 0x00000002 = true := by
  decide +kernel
theorem test_isprime_two : leaves (step (running [] (.isprime 3 0 1) (snap 2 0 0 1 true))) 1 0x00000012 = true := by
  decide +kernel
theorem test_isprime_compat_off_by_one :
    leaves (step (running [] (.isprime 3 0 1) (snap 4 0 0 1 true))) 1 0x00000012 = true := by decide +kernel

/-! ### Witnesses: for each obligation with hypotheses, values that meet all of them together -/

/-- The engine's invariant of a running command whose word decodes to it and whose snapshot passes its check. -/
theorem running_inv (evs : List Event) (i : Instr) (sn : Snapshot) (hd : decode (encode i) = some i)
    (hi : sn.imm = i.fields.imm) (hc : checkOf i sn = none) : (running evs i sn).engine.Inv :=
  ⟨by simp [running, Engine.reset, Status.Consistent], fun _ => ⟨hd, hi, hc⟩⟩

/-- MODEXP's running state of program P1's step 7: 65^17 mod 3233. -/
theorem modexp_running_inv (evs : List Event) : (running evs (.modexp 3 0 1 2) (snap 65 17 3233 0 false)).engine.Inv :=
  running_inv _ _ _ (by decide) rfl (by decide +kernel)

theorem witness_DecoderAndEncoderAreInverse :
    (Instr.isprime 7 7 4095).WellFormed ∧ decode 0xFFF00049 = some (.isprime 1 0 4095) := by decide

theorem witness_OpcodeRowsAreDisjoint :
    isprimeRow ∈ rows true ∧ nopRow ∈ rows true ∧ isprimeRow.hits 0xFFF00049 = true ∧ nopRow.hits 0 = true := by decide

theorem witness_IllegalWordsAreRejected :
    opField 0x07 = 0x07 ∧ (0x0A : BitVec 6) ≤ opField 0x0A ∧ (0x0A : BitVec 6) ≤ opField 0x3F ∧
    (0x000510C3 : Word).extractLsb' 18 2 ≠ 0 ∧ (0x03280049 : Word).extractLsb' 18 2 ≠ 0 ∧
    (idle [w32 0x010 0x00000040] 0 0 0).engine.status.busy = false ∧
    (idle [w32 0x010 0x00000040] 0 0 0).schedule = [.write 0x010 .word 0x00000040] ∧ decode 0x00000040 = none := by
  decide

theorem witness_MontmulNeedsItsOption : opField 0x00000006 = 0x06 ∧ opField 0x000110C5 ≠ 0x06 := by decide

theorem witness_HardwareResetValues :
    (running [.reset] .nop (snap 0 0 0 0 false)).schedule = [.reset] := rfl

theorem witness_SoftResetIsHardwareReset :
    (0x0000000F : Word)[3] = true ∧ (idle [w32 0x008 0x0000000F] 1 2 3).schedule = [.write 0x008 .word 0x0000000F] := by
  decide

theorem witness_ResetWhileBusyDropsTheCommand :
    (running [.reset, .complete, r32 0x1FFC] .nop (snap 0 0 0 0 false)).engine.status.busy = true ∧
    (running [.reset, .complete, r32 0x1FFC] .nop (snap 0 0 0 0 false)).schedule =
      .reset :: [.complete, .read 0x1FFC .word] ++ [] ∧
    (0x0000000C : Word)[3] = true ∧
    (running [w32 0x008 0xC, .complete] .nop (snap 0 0 0 0 false)).schedule =
      .write 0x008 .word 0x0000000C :: [.complete] ++ [] ∧
    (running [w32 0x008 0x4] .nop (snap 0 0 0 0 false)).engine.status.errcode ≠ .aborted ∧
    ends (step (running [w32 0x008 0x4] .nop (snap 0 0 0 0 false))) (fun t => t.engine.status.errcode == .aborted) = true := by
  decide +kernel

theorem witness_MalformedAccessGetsError :
    (0x1FFF < 0x2000 ∧ 0x1FFF % 4 ≠ 0 ∧ (idle [r32 0x1FFF] 0 0 0).schedule = [.read 0x1FFF .word]) ∧
    (0 < 0x2000 ∧ Width.byte ≠ .word ∧
      (idle [.write 0 .byte 0] 0 0 0).schedule = [.write 0 .byte 0]) := by decide

theorem witness_WindowReadsAndWritesLimbs :
    (idle [] 0 0 0).engine.status.busy = false ∧
    (idle [r32 0x1000] 0 0 0).schedule = [.read (0x1000 + 0x200 * (0 : Reg).val + 4 * (0 : Fin 128).val) .word] ∧
    (idle [w32 0x1FFC 9] 0 0 0).schedule = [.write (0x1000 + 0x200 * (7 : Reg).val + 4 * (127 : Fin 128).val) .word 9] := by
  decide

theorem witness_OperandLoadAndReadBack :
    (idle (wrx 7 (-1)) 0 0 0).engine.status.busy = false ∧ (idle (wrx 7 (-1)) 0 0 0).schedule = wrx 7 (-1) ++ [] :=
  ⟨rfl, (List.append_nil _).symm⟩

theorem witness_WindowIsClosedWhileBusy :
    (running [w32 0x1000 9] .nop (snap 0 0 0 0 false)).engine.status.busy = true ∧
    (running [w32 0x1000 9] .nop (snap 0 0 0 0 false)).schedule = [.write 0x1000 .word 9] ∧
    (running [r32 0x1FFC] .nop (snap 0 0 0 0 false)).schedule = [.read 0x1FFC .word] ∧
    0x1000 ≤ 0x1FFC ∧ 0x1FFC < 0x2000 ∧ 0x1FFC % 4 = 0 := by decide

theorem witness_ReservedSpaceIsReadZeroWriteIgnored :
    (idle [r32 0x014] 0 0 0).schedule = [.read 0x014 .word] ∧ (idle [w32 0xFFC 1] 0 0 0).schedule = [.write 0xFFC .word 1] ∧
    0x014 ≤ 0xFFC ∧ 0xFFC < 0x1000 ∧ 0xFFC % 4 = 0 ∧ 0x014 % 4 = 0 ∧
    (idle [w32 0x004 1] 0 0 0).schedule = [.write 0x004 .word 1] ∧
    (idle [r32 0x2000] 0 0 0).schedule = [.read 0x2000 .word] := by decide

theorem witness_IdAndParamAreConstant :
    (running [r32 0x000] .nop (snap 0 0 0 0 false)).schedule = [.read 0x000 .word] ∧
    (idle [r32 0x004] 0 0 0).schedule = [.read 0x004 .word] ∧
    (idle [w32 0x000 0x12345678] 0 0 0).schedule = [.write 0x000 .word 0x12345678] := by decide

theorem witness_ReadsHaveNoSideEffect :
    (running [r32 0x1FFC] .nop (snap 0 0 0 0 false)).schedule = [.read 0x1FFC .word] ∧ 0x1FFC < 0x2000 ∧ 0x1FFC % 4 = 0 := by
  decide

theorem witness_CtrlWriteAndRead :
    (idle [w32 0x008 0x0000000B] 0 0 0).schedule = [.write 0x008 .word 0x0000000B] ∧ (0x0000000B : Word)[3] = true ∧
    (idle [w32 0x008 0x00000007] 0 0 0).schedule = [.write 0x008 .word 0x00000007] ∧ (0x00000007 : Word)[3] = false ∧
    (0x00000007 : Word)[2] = true ∧ (idle [] 0 0 0).engine.status.busy = false ∧
    (running [w32 0x008 0x7] .nop (snap 0 0 0 0 false)).schedule = [.write 0x008 .word 0x00000007] ∧
    (running [] .nop (snap 0 0 0 0 false)).engine.status.busy = true ∧
    (idle [r32 0x008] 0 0 0).schedule = [.read 0x008 .word] := by decide

theorem witness_StatusWriteAndRead :
    (running [w32 0x00C 0x26] (.modexp 3 0 1 2) (snap 65 17 3233 0 false)).engine.Inv ∧
    (running [w32 0x00C 0x26] (.modexp 3 0 1 2) (snap 65 17 3233 0 false)).engine.status.busy = true ∧
    (running [w32 0x00C 0x26] (.modexp 3 0 1 2) (snap 65 17 3233 0 false)).schedule = [.write 0x00C .word 0x26] ∧
    (idle [r32 0x00C] 0 0 0).schedule = [.read 0x00C .word] := ⟨modexp_running_inv _, rfl, rfl, rfl⟩

theorem witness_CmdReadsTheLastDecodedWord :
    (running [w32 0x010 7] .nop (snap 0 0 0 0 false)).schedule = [.write 0x010 .word 7] ∧
    (idle [w32 0x010 7] 0 0 0).schedule = [.write 0x010 .word 7] ∧
    (idle [r32 0x010] 0 0 0).schedule = [.read 0x010 .word] := by decide

theorem witness_CmdWriteWhileBusyOnlySetsOvr :
    (running [w32 0x010 7] .nop (snap 0 0 0 0 false)).engine.status.busy = true ∧
    (running [w32 0x010 7] .nop (snap 0 0 0 0 false)).schedule = [.write 0x010 .word 7] := by decide

theorem witness_StepRunsTheDecodedCommand :
    ((idle [w32 0x010 0x000110C3] 65 17 3233).engine.status.busy = false ∧
      (idle [w32 0x010 0x000110C3] 65 17 3233).schedule = [.write 0x010 .word 0x000110C3] ∧
      decode 0x000110C3 = some (.modexp 3 0 1 2)) ∧
    ((running [.complete] .nop (snap 0 0 0 0 false)).engine.status.busy = true ∧
      (running [.complete] .nop (snap 0 0 0 0 false)).schedule = [.complete] ∧
      (running [] .nop (snap 0 0 0 0 false)).schedule = []) := by decide +kernel

theorem witness_SubmissionChecksThenAccepts :
    (running [w32 0x010 0x7] .nop (snap 0 0 0 0 false)).schedule = [.write 0x010 .word 0x7] ∧
    (running [w32 0x010 0x7] .nop (snap 0 0 0 0 false)).engine.status.busy = true ∧
    (idle [w32 0x010 0x000110C6] 3232 0 3233).schedule = [.write 0x010 .word 0x000110C6] ∧
    (idle [w32 0x010 0x000110C6] 3232 0 3233).engine.status.busy = false ∧
    decode 0x000110C6 = some (.montmul 3 0 1 2) := by decide +kernel

theorem witness_CmdWriteForgetsTheOldOutcome :
    (idle [w32 0x010 0] 0 0 0).engine.status.busy = false ∧
    (⟨false, true, true, false, false, false, .badArg⟩ : Status).busy = false ∧
    (⟨false, true, true, false, false, false, .badArg⟩ : Status).ovr = (idle [w32 0x010 0] 0 0 0).engine.status.ovr ∧
    (idle [w32 0x010 0] 0 0 0).schedule = [.write 0x010 .word 0] := by decide +kernel

theorem witness_ErrorsAtAcceptArePrecise :
    (idle [w32 0x010 0x000110C3] 1 2 0).engine.status.busy = false ∧
    (idle [w32 0x010 0x000110C3] 1 2 0).schedule = [.write 0x010 .word 0x000110C3] ∧
    ends (step (idle [w32 0x010 0x000110C3] 1 2 0)) (fun t => t.engine.status.err) = true := by decide +kernel

theorem witness_NopCompletes :
    (running [] .nop (snap 1 2 3 0 true)).engine.status.busy = true ∧
    (running [] .nop (snap 1 2 3 0 true)).engine.cur = ⟨.nop, snap 1 2 3 0 true⟩ := ⟨rfl, rfl⟩

theorem witness_GcdCompletes :
    (running [] (.gcd 7 7 7) (snap 0 0 0 0 false)).engine.status.busy = true ∧
    (running [] (.gcd 7 7 7) (snap 0 0 0 0 false)).engine.cur = ⟨.gcd 7 7 7, snap 0 0 0 0 false⟩ := ⟨rfl, rfl⟩

theorem witness_ModinvCompletes :
    (running [] (.modinv 0 0 1) (snap 0 0 1 0 false)).engine.status.busy = true ∧
    (running [] (.modinv 0 0 1) (snap 0 0 1 0 false)).engine.cur = ⟨.modinv 0 0 1, snap 0 0 1 0 false⟩ ∧
    (snap 0 0 1 0 false).m ≠ 0 ∧
    ¬ 1 < Nat.gcd (snap 0 0 1 0 false).a.toNat (snap 0 0 1 0 false).m.toNat ∧
    1 < Nat.gcd (snap 0 0 7 0 false).a.toNat (snap 0 0 7 0 false).m.toNat :=
  ⟨rfl, rfl, by decide +kernel, by decide +kernel, by decide +kernel⟩

theorem witness_ModexpCompletes :
    (running [] (.modexp 7 7 7 7) (snap 0 0 1 0 false)).engine.status.busy = true ∧
    (running [] (.modexp 7 7 7 7) (snap 0 0 1 0 false)).engine.cur = ⟨.modexp 7 7 7 7, snap 0 0 1 0 false⟩ ∧
    (snap 0 0 1 0 false).m ≠ 0 := ⟨rfl, rfl, by decide +kernel⟩

theorem witness_ModmulCompletes :
    (running [] (.modmul 3 0 1 2) (snap 5 9 1 0 false)).engine.status.busy = true ∧
    (running [] (.modmul 3 0 1 2) (snap 5 9 1 0 false)).engine.cur = ⟨.modmul 3 0 1 2, snap 5 9 1 0 false⟩ ∧
    (snap 5 9 1 0 false).m ≠ 0 := ⟨rfl, rfl, by decide +kernel⟩

theorem witness_ModredCompletes :
    (running [] (.modred 5 5 6) (snap 9 0 1 0 false)).engine.status.busy = true ∧
    (running [] (.modred 5 5 6) (snap 9 0 1 0 false)).engine.cur = ⟨.modred 5 5 6, snap 9 0 1 0 false⟩ ∧
    (snap 9 0 1 0 false).m ≠ 0 := ⟨rfl, rfl, by decide +kernel⟩

theorem witness_MontmulCompletes :
    (running [] (.montmul 3 0 1 2) (snap 0 0 1 0 false)).engine.status.busy = true ∧
    (running [] (.montmul 3 0 1 2) (snap 0 0 1 0 false)).engine.cur = ⟨.montmul 3 0 1 2, snap 0 0 1 0 false⟩ ∧
    (snap 0 0 1 0 false).m.toNat % 2 = 1 ∧ (snap 0 0 1 0 false).a < (snap 0 0 1 0 false).m ∧
    (snap 0 0 1 0 false).b < (snap 0 0 1 0 false).m :=
  ⟨rfl, rfl, by decide +kernel, by decide +kernel, by decide +kernel⟩

theorem witness_MrroundCompletes :
    (running [] (.mrround 2 0 1) (snap 4 2 0 0 false)).engine.status.busy = true ∧
    (running [] (.mrround 2 0 1) (snap 4 2 0 0 false)).engine.cur = ⟨.mrround 2 0 1, snap 4 2 0 0 false⟩ ∧
    3 < (snap 4 2 0 0 false).a.toNat ∧ 2 ≤ (snap 4 2 0 0 false).b.toNat ∧
    (snap 4 2 0 0 false).b.toNat ≤ (snap 4 2 0 0 false).a.toNat - 2 ∧
    (snap 4 2 0 0 false).a.toNat - 1 = 2 ^ 0 * 3 ∧ 3 % 2 = 1 :=
  ⟨rfl, rfl, by decide +kernel, by decide +kernel, by decide +kernel, by decide +kernel, rfl⟩

theorem witness_IsprimeCompletes :
    (running [] (.isprime 1 0 4095) (snap 4 0 0 4095 false)).engine.status.busy = true ∧
    (running [] (.isprime 1 0 4095) (snap 4 0 0 4095 false)).engine.cur = ⟨.isprime 1 0 4095, snap 4 0 0 4095 false⟩ :=
  ⟨rfl, rfl⟩

theorem witness_ResultsFitTheRegister :
    checkOf (.modexp 3 0 1 2) (snap 7 0 1 0 false) = none ∧
    (resultOf (.modexp 3 0 1 2) (snap 7 0 1 0 false) (fun _ => 0)).out = some 0 := by decide +kernel

theorem witness_DecompositionIsExact : 3 < 4 ∧ 4 < 2 ^ 4096 ∧ 4 % 2 = 0 := by decide +kernel

theorem witness_PrimesPassEveryRound : Nat.Prime 5 ∧ 3 < 5 ∧ 5 < 2 ^ 4096 ∧ 2 ≤ 3 ∧ 3 ≤ 5 - 2 :=
  ⟨by decide, by decide, by decide +kernel, by decide, by decide⟩

theorem witness_IsprimeAcceptsEveryPrime :
    (running [] (.isprime 1 0 50) (snap 2 0 0 50 false)).engine.status.busy = true ∧
    (running [] (.isprime 1 0 50) (snap 2 0 0 50 false)).engine.cur = ⟨.isprime 1 0 50, snap 2 0 0 50 false⟩ ∧
    (snap 2 0 0 50 false).a.toNat.Prime := by
  refine ⟨rfl, rfl, ?_⟩
  have h : (snap 2 0 0 50 false).a.toNat = 2 := by decide +kernel
  rw [h]; decide

theorem witness_IsprimeRejectsWithoutLiars :
    (running [] (.isprime 1 0 1) (snap 4 0 0 1 false)).engine.status.busy = true ∧
    (running [] (.isprime 1 0 1) (snap 4 0 0 1 false)).engine.cur = ⟨.isprime 1 0 1, snap 4 0 0 1 false⟩ ∧
    3 < (snap 4 0 0 1 false).a.toNat ∧ 1 ≤ (snap 4 0 0 1 false).imm ∧ (snap 4 0 0 1 false).compat = false ∧
    mrRound 4 2 = .composite ∧ 1 ≤ (snap 9 0 0 2 true).imm - 1 ∧ (snap 0 0 0 1 false).a.toNat = 0 ∧
    (snap 1 0 0 1 false).a.toNat = 1 :=
  ⟨rfl, rfl, by decide +kernel, by decide, rfl, by decide +kernel, by decide, by decide +kernel, by decide +kernel⟩

theorem witness_LiarsAdmitBothVerdicts :
    3 < 25 ∧ 2 ≤ 7 ∧ 7 ≤ 25 - 2 ∧ mrRound 25 7 = .probablyPrime ∧ mrRound 25 2 = .composite := by decide +kernel

theorem witness_CompatibilityModeWithOneIterationAcceptsAll :
    (running [] (.isprime 5 0 1) (snap 4 0 0 1 true)).engine.status.busy = true ∧
    (running [] (.isprime 5 0 1) (snap 4 0 0 1 true)).engine.cur = ⟨.isprime 5 0 1, snap 4 0 0 1 true⟩ ∧
    (snap 4 0 0 1 true).imm = 1 ∧ (snap 4 0 0 1 true).compat = true ∧ 3 < (snap 4 0 0 1 true).a.toNat :=
  ⟨rfl, rfl, rfl, rfl, by decide +kernel⟩

theorem witness_MontgomeryFormRoundTrip : 3233 % 2 = 1 ∧ 3232 < 3233 ∧ 0 < 3233 := by decide

theorem witness_SubmitThenCompleteIsTheCommand :
    (Instr.modexp 1 1 1 1).WellFormed ∧
    (idle [w32 0x010 (encode (.modexp 1 1 1 1)), .complete] 0 5 0).engine.status.busy = false ∧
    checkOf (.modexp 1 1 1 1)
      (snapshot (.modexp 1 1 1 1) (idle [w32 0x010 (encode (.modexp 1 1 1 1)), .complete] 0 5 0).engine) = none ∧
    (idle [w32 0x010 (encode (.modexp 1 1 1 1)), .complete] 0 5 0).schedule =
      .write 0x010 .word (encode (.modexp 1 1 1 1)) :: .complete :: [] := by decide +kernel

theorem witness_ModexpWithAnyAliasing :
    (idle [w32 0x010 (encode (.modexp 1 1 1 1)), .complete] 0 5 0).engine.status.busy = false ∧
    (idle [w32 0x010 (encode (.modexp 1 1 1 1)), .complete] 0 5 0).engine.reg 1 ≠ 0 ∧
    (idle [w32 0x010 (encode (.modexp 1 1 1 1)), .complete] 0 5 0).schedule =
      .write 0x010 .word (encode (.modexp 1 1 1 1)) :: .complete :: [] := by decide +kernel

theorem witness_HostCannotDisturbARunningCommand :
    (running [w32 0x008 0x3, w32 0x1000 7, r32 0x1FFC, w32 0x010 7] .nop (snap 0 0 0 0 false)).engine.status.busy = true ∧
    [w32 0x008 0x3, w32 0x1000 7, r32 0x1FFC, w32 0x010 7].all Event.leavesRunning = true := by decide +kernel

theorem witness_RunningCommandFinishes :
    (running [w32 0x1000 7] (.modexp 3 0 1 2) (snap 65 17 3233 0 false)).engine.Inv ∧
    (running [w32 0x1000 7] (.modexp 3 0 1 2) (snap 65 17 3233 0 false)).engine.status.busy = true ∧
    (running [w32 0x1000 7] (.modexp 3 0 1 2) (snap 65 17 3233 0 false)).schedule.all Event.leavesRunning = true :=
  ⟨modexp_running_inv _, rfl, by decide⟩

theorem witness_CommandFinishesFirstAtItsEnd :
    (idle [w32 0x010 0x000110C3, w32 0x1000 7, .complete] 65 17 1).engine.status.busy = false ∧
    decode 0x000110C3 = some (.modexp 3 0 1 2) ∧
    checkOf (.modexp 3 0 1 2) (snapshot (.modexp 3 0 1 2) (loaded 65 17 1)) = none ∧
    [w32 0x1000 7].all Event.leavesRunning = true ∧
    (idle [w32 0x010 0x000110C3, w32 0x1000 7, .complete] 65 17 1).schedule =
      .write 0x010 .word 0x000110C3 :: ([w32 0x1000 7] ++ .complete :: []) ∧
    decode 0x00000007 = none ∧
    checkOf (.modexp 3 0 1 2) (snapshot (.modexp 3 0 1 2) (loaded 65 17 0)) = some .modZero ∧
    (idle [w32 0x010 0x000110C3] 65 17 0).schedule = [.write 0x010 .word 0x000110C3] := by decide +kernel

theorem witness_FinishedProgramStaysFinished :
    ProgramFinished (idle [.complete] 0 0 0) ∧ ProgramFinished (idle [.reset] 0 0 0) ∧
    (running [] .nop (snap 0 0 0 0 false)).engine.status.busy = true := by decide +kernel

theorem test_program_with_an_access_left_is_not_finished : ¬ ProgramFinished (idle [.complete, r32 0x00C] 0 0 0) := by
  decide +kernel

theorem witness_AbortEndsTheCommand :
    (running [w32 0x008 0x4] (.modexp 3 0 1 2) (snap 65 17 3233 0 false)).engine.Inv ∧
    (running [w32 0x008 0x4] (.modexp 3 0 1 2) (snap 65 17 3233 0 false)).engine.status.busy = true ∧
    (running [w32 0x008 0x4] (.modexp 3 0 1 2) (snap 65 17 3233 0 false)).schedule = [.write 0x008 .word 0x4] ∧
    (0x4 : Word)[2] = true ∧ (0x4 : Word)[3] = false ∧
    State.reset.engine.Inv ∧ State.reset.engine.status.busy = false :=
  ⟨modexp_running_inv _, rfl, rfl, by decide, by decide, ⟨by decide, by decide⟩, rfl⟩

theorem witness_AbortAndCompletionRace :
    (running [.complete, w32 0x008 0x4] (.modexp 3 0 1 2) (snap 65 17 3233 0 false)).engine.Inv ∧
    (running [.complete, w32 0x008 0x4] (.modexp 3 0 1 2) (snap 65 17 3233 0 false)).schedule =
      .complete :: .write 0x008 .word 0x4 :: [] ∧
    (running [w32 0x008 0x4, .complete] (.modexp 3 0 1 2) (snap 65 17 3233 0 false)).schedule =
      .write 0x008 .word 0x4 :: .complete :: [] ∧
    (0x4 : Word)[2] = true ∧ (0x4 : Word)[3] = false ∧ (0xC : Word)[3] = true :=
  ⟨modexp_running_inv _, rfl, rfl, by decide, by decide, by decide⟩

theorem witness_InterruptIsEnableAndDone :
    (0x1 : Word)[2] = false ∧ (0x1 : Word)[3] = false ∧
    (idle [w32 0x008 0x1] 0 0 0).schedule = [.write 0x008 .word 0x1] ∧
    (0x2 : Word)[1] = true ∧ (idle [w32 0x00C 0x2] 0 0 0).schedule = [.write 0x00C .word 0x2] ∧
    (idle [w32 0x010 0] 0 0 0).engine.status.busy = false ∧ (idle [w32 0x010 0] 0 0 0).schedule = [.write 0x010 .word 0] ∧
    ends (step (idle [w32 0x010 0] 0 0 0)) (fun _ => true) = true := by decide +kernel

theorem witness_EveryStepKeepsTheInvariant :
    ∃ t, (running [] (.modexp 3 0 1 2) (snap 65 17 3233 0 false)).engine.Inv ∧
      step (running [] (.modexp 3 0 1 2) (snap 65 17 3233 0 false)) = .next t := ⟨_, modexp_running_inv _, rfl⟩

theorem witness_SafeRunsNeverStop :
    Safe (running [w32 0x010 7, .complete, .reset] (.modexp 3 0 1 2) (snap 65 17 3233 0 false)) :=
  ⟨modexp_running_inv _, by decide⟩

theorem witness_OnlyThreeThingsWriteAnOperandRegister :
    ends (step (idle [w32 0x1000 7] 5 0 0)) (fun t => t.engine.reg 0 != (idle [w32 0x1000 7] 5 0 0).engine.reg 0) = true ∧
    ends (step (running [] (.gcd 3 0 1) (snap 60 52 0 0 false)))
      (fun t => t.engine.reg 3 != (running [] (.gcd 3 0 1) (snap 60 52 0 0 false)).engine.reg 3) = true ∧
    ends (step (idle [.reset] 5 0 0)) (fun t => t.engine.reg 0 != (idle [.reset] 5 0 0).engine.reg 0) = true := by
  decide +kernel

theorem witness_OnlyThreeThingsSetDone :
    (running [] .nop (snap 0 0 0 0 false)).engine.status.done = false ∧
    ends (step (running [] .nop (snap 0 0 0 0 false))) (fun t => t.engine.status.done) = true ∧
    ends (step (idle [w32 0x010 7] 0 0 0)) (fun t => t.engine.status.done) = true ∧
    ends (step (running [w32 0x008 0x4] .nop (snap 0 0 0 0 false))) (fun t => t.engine.status.done) = true := by
  decide +kernel

theorem witness_OvrRisesAndFallsAsStated :
    (running [] .nop (snap 0 0 0 0 false)).engine.status.ovr = false ∧
    ends (step (running [w32 0x1FFC 7] .nop (snap 0 0 0 0 false))) (fun t => t.engine.status.ovr) = true ∧
    (⟨false, false, false, false, false, true, .none⟩ : Status).ovr = true ∧
    ends (step (standing [w32 0x00C 0x20] ⟨false, false, false, false, false, true, .none⟩ ⟨false, false⟩))
      (fun t => !t.engine.status.ovr) = true ∧
    ends (step (standing [.reset] ⟨false, false, false, false, false, true, .none⟩ ⟨false, false⟩))
      (fun t => !t.engine.status.ovr) = true := by decide +kernel

theorem witness_LatchedCommandIsUnreadWhileIdle :
    (idle [w32 0x010 0x00000001] 60 52 0).engine.status.busy = false ∧
    ends (step (idle [w32 0x010 0x00000001] 60 52 0)) (fun t => t.engine.status.busy) = true := by decide +kernel

end Sys2Proof.Tests
end

section
/-! PROOFS. The statements of the family 10_state.md: what a step can do to the engine as one inductive relation, and the
invariant, the frames and the register reads and writes that follow from it. -/

namespace Sys2Proof.Machine

/-! ### What a step can do to the engine, case by case -/

/-- The engines a step from `s` can leave, one constructor per cause: `step_engine` with its cases named. -/
inductive StepEffect (s : State) : Engine → Prop
  /-- A read, an ignored write, or a completion point of an idle engine. -/
  | unchanged : StepEffect s s.engine
  /-- The latched command completes (40_command_lifecycle.md R106). -/
  | completed (d : Nat → Nat) (hb : s.engine.status.busy = true)
      (hs : s.schedule = [] ∨ ∃ rest, s.schedule = .complete :: rest) :
      StepEffect s (complete s.engine.cur.cmd.fields.rd (resultOf s.engine.cur.cmd s.engine.cur.snap d) s).engine
  /-- `rst`, or a CTRL write with SRST (70_reset_and_hazards.md R240, R241). -/
  | reset (hs : (∃ rest, s.schedule = .reset :: rest) ∨
      ∃ v rest, v[3] = true ∧ s.schedule = .write 0x008 .word v :: rest) : StepEffect s Engine.reset
  /-- A CTRL write that neither resets nor aborts (10_state.md R27). -/
  | ctrlWritten (v : Word) : StepEffect s { s.engine with ctrl := .ofWord v }
  /-- A CTRL write with ABORT while BUSY (40_command_lifecycle.md R108). -/
  | aborted (v : Word) (rest : List Event) (hs : s.schedule = .write 0x008 .word v :: rest) (h2 : v[2] = true)
      (h3 : v[3] = false) (hb : s.engine.status.busy = true) :
      StepEffect s { s.engine with ctrl := .ofWord v, status := s.engine.status.failed .aborted }
  /-- A STATUS write (10_state.md R29). -/
  | statusWritten (v : Word) (rest : List Event) (hs : s.schedule = .write 0x00C .word v :: rest) :
      StepEffect s { s.engine with status := s.engine.status.w1c v }
  /-- A CMD or window write while BUSY (20_memory.md R57; 40_command_lifecycle.md R105). -/
  | ovrSet (hb : s.engine.status.busy = true)
      (hs : ∃ off v rest, s.schedule = .write off .word v :: rest ∧ (off = 0x010 ∨ 0x1000 ≤ off ∧ off < 0x2000)) :
      StepEffect s { s.engine with status := { s.engine.status with ovr := true } }
  /-- A limb write while idle (20_memory.md R55). -/
  | limbWritten (i : Reg) (j : Fin 128) (v : Word) (rest : List Event) (hb : s.engine.status.busy = false)
      (hs : s.schedule = .write (limbOffset i j) .word v :: rest) :
      StepEffect s (s.engine.setReg i (setLimb (s.engine.reg i) j v))
  /-- A CMD write that ends at once in an error (40_command_lifecycle.md R104). -/
  | rejected (v : Word) (rest : List Event) (code : ErrCode) (hb : s.engine.status.busy = false)
      (hs : s.schedule = .write 0x010 .word v :: rest) (hc : code ≠ .none) :
      StepEffect s { s.engine with lastCmd := v, status := s.engine.status.clearOutcome.failed code }
  /-- A CMD write that is accepted (40_command_lifecycle.md R101, R103). -/
  | accepted (v : Word) (i : Instr) (hd : decode v = some i) (hc : checkOf i (snapshot i s.engine) = none) :
      StepEffect s { s.engine with
        lastCmd := v, cur := ⟨i, snapshot i s.engine⟩, status := { s.engine.status.clearOutcome with busy := true } }

theorem step_effect {s t : State} (h : step s = .next t) : StepEffect s t.engine := by
  rcases step_engine h with he | ⟨hb, hs, d, he⟩ | ⟨he, hs⟩ | ⟨v, rest, hs, h3, he | ⟨h2, hb, he⟩⟩ | ⟨v, rest, hs, he⟩ |
    ⟨hb, he, hs⟩ | ⟨hb, i, j, v, rest, hs, he⟩ | ⟨hb, v, rest, code, hs, hc, he⟩ | ⟨hb, v, rest, i, hs, hd, hc, he⟩ <;>
    rw [he]
  · exact .unchanged
  · exact .completed d hb hs
  · exact .reset hs
  · exact .ctrlWritten v
  · exact .aborted v rest hs h2 h3 hb
  · exact .statusWritten v rest hs
  · exact .ovrSet hb hs
  · exact .limbWritten i j v rest hb hs
  · exact .rejected v rest code hb hs (by rcases hc with rfl | rfl | rfl <;> decide)
  · exact .accepted v i hd hc

/-! ### The invariant -/

/-- A completion leaves a consistent STATUS: no error stands while BUSY, and no command sets both verdicts. -/
theorem Status.completed_consistent {st : Status} {noinv prime : Bool} (h : st.Consistent) (hb : st.busy = true)
    (hf : (noinv && prime) = false) : (st.completed noinv prime).Consistent := by
  obtain ⟨hbusy, herr, -, -⟩ := h
  obtain ⟨-, he, -, -⟩ := hbusy hb
  exact ⟨by simp, herr, by simp [he], hf⟩

/-- While idle the latched command is not constrained (10_state.md R37). -/
theorem Engine.inv_of_idle {e : Engine} (hc : e.status.Consistent) (hb : e.status.busy = false) : e.Inv :=
  ⟨hc, by simp [hb]⟩

theorem Engine.inv_reset : Engine.reset.Inv := Engine.inv_of_idle (by decide) rfl

theorem StepEffect.inv {s : State} {e : Engine} (h : StepEffect s e) (hi : s.engine.Inv) : e.Inv := by
  obtain ⟨hst, hcur⟩ := hi
  cases h with
  | unchanged => exact ⟨hst, hcur⟩
  | completed d hb hs =>
    refine Engine.inv_of_idle ?_ rfl
    simpa using Status.completed_consistent hst hb (resultOf_flags _ _ d)
  | reset hs => exact Engine.inv_reset
  | ctrlWritten v => exact ⟨hst, hcur⟩
  | aborted v rest hs h2 h3 hb =>
    obtain ⟨-, -, hn, hp⟩ := hst.1 hb
    exact Engine.inv_of_idle (Status.failed_consistent (by decide) hn hp) rfl
  | statusWritten v rest hs => exact ⟨Status.w1c_consistent v hst, hcur⟩
  | ovrSet hb hs => exact ⟨Status.ovr_consistent hst, hcur⟩
  | limbWritten i j v rest hb hs => exact ⟨hst, hcur⟩
  | rejected v rest code hb hs hc => exact Engine.inv_of_idle (Status.failed_consistent hc rfl rfl) rfl
  | accepted v i hd hc => exact ⟨by simp [Status.Consistent], fun _ => ⟨hd, rfl, hc⟩⟩

/-- Settles O52: each of the causes in `StepEffect` keeps STATUS consistent and the latched command accepted. -/
theorem everyStepKeepsTheInvariant : Obligations.EveryStepKeepsTheInvariant := by
  intro s t hi h
  exact (step_effect h).inv hi

/-! ### Which steps write an X register, set DONE, or change OVR -/

/-- Settles O54: only the limb write, the completion and the reset of `StepEffect` touch the register file. -/
theorem onlyThreeThingsWriteAnOperandRegister : Obligations.OnlyThreeThingsWriteAnOperandRegister := by
  intro s t r h hr
  have heff := step_effect h
  generalize t.engine = e at heff hr ⊢
  cases heff with
  | completed d hb hs =>
    refine .inr (.inl ⟨hb, ?_, hs⟩)
    by_contra hne
    exact hr (writeOut_reg_ne _ _ _ _ hne)
  | reset hs => exact .inr (.inr ⟨⟨_, rfl⟩, hs⟩)
  | limbWritten i j v rest hb hs =>
    have hri : r = i := by
      by_contra hne
      exact hr (reg_setReg_ne _ _ hne)
    subst hri
    exact .inl ⟨hb, j, v, rest, hs⟩
  | unchanged | ctrlWritten | aborted | statusWritten | ovrSet | rejected | accepted => exact absurd rfl hr

/-- Settles O55: DONE rises in the completion, the abort and the rejected CMD write of `StepEffect` only. -/
theorem onlyThreeThingsSetDone : Obligations.OnlyThreeThingsSetDone := by
  intro s t h h0 h1
  have heff := step_effect h
  generalize t.engine = e at heff h1 ⊢
  cases heff with
  | completed d hb hs => exact .inl ⟨hb, rfl, by simp, hs⟩
  | aborted v rest hs h2 h3 hb => exact .inr (.inr ⟨hb, rfl, rfl, v, rest, h2, h3, hs⟩)
  | rejected v rest code hb hs hc => exact .inr (.inl ⟨hb, rfl, rfl, v, rest, hs⟩)
  | reset | accepted => cases h1
  | statusWritten => simp [h0] at h1
  | unchanged | ctrlWritten | ovrSet | limbWritten => exact absurd (h0.symm.trans h1) (by decide)

/-- OVR rises in one case of `StepEffect` only: a CMD or window write while BUSY. -/
theorem StepEffect.ovr_rises {s : State} {e : Engine} (h : StepEffect s e) (h0 : s.engine.status.ovr = false)
    (h1 : e.status.ovr = true) :
    s.engine.status.busy = true ∧ ∃ off v rest, s.schedule = .write off .word v :: rest ∧
      (off = 0x010 ∨ (0x1000 ≤ off ∧ off < 0x2000)) := by
  cases h with
  | ovrSet hb hs => exact ⟨hb, hs⟩
  | reset => cases h1
  | _ => simp [h0] at h1

/-- OVR falls in two cases of `StepEffect` only: a STATUS write with bit 5 set, or a reset. -/
theorem StepEffect.ovr_falls {s : State} {e : Engine} (h : StepEffect s e) (h0 : s.engine.status.ovr = true)
    (h1 : e.status.ovr = false) :
    (∃ v rest, v[5] = true ∧ s.schedule = .write 0x00C .word v :: rest) ∨
      ∃ c, e = { State.reset.engine with cur := c } := by
  cases h with
  | statusWritten v rest hs => exact .inl ⟨v, rest, by simpa [h0] using h1, hs⟩
  | reset => exact .inr ⟨_, rfl⟩
  | _ => simp [h0] at h1

/-- Settles O56, by the cases of `StepEffect` that raise OVR and those that drop it. -/
theorem ovrRisesAndFallsAsStated : Obligations.OvrRisesAndFallsAsStated := by
  intro s t h
  exact ⟨(step_effect h).ovr_rises, (step_effect h).ovr_falls⟩

/-! ### The frame of a command -/

/-- Neither submission nor completion changes CTRL, LASTCMD or OVR. -/
theorem exec_keeps {i : Instr} {s t : State} (h : exec i s = .next t) :
    t.engine.ctrl = s.engine.ctrl ∧ t.engine.lastCmd = s.engine.lastCmd ∧
      t.engine.status.ovr = s.engine.status.ovr := by
  rcases exec_cases i s with ⟨-, h'⟩ | ⟨-, _, -, h'⟩ | ⟨-, -, h'⟩ <;>
    · obtain rfl := Host.Outcome.next.inj (h'.symm.trans h)
      simp

/-- Submission writes no X register, draws nothing and leaves NOINV and PRIME (40_command_lifecycle.md R103, R104). -/
theorem exec_idle_keeps {i : Instr} {s t : State} (h : exec i s = .next t) (hb : s.engine.status.busy = false) :
    t.engine.x = s.engine.x ∧ t.draws = s.draws ∧ t.engine.status.noinv = s.engine.status.noinv ∧
      t.engine.status.prime = s.engine.status.prime := by
  rcases exec_cases i s with ⟨hb', -⟩ | ⟨-, _, -, h'⟩ | ⟨-, -, h'⟩
  · simp [hb] at hb'
  all_goals
    obtain rfl := Host.Outcome.next.inj (h'.symm.trans h)
    simp

/-- What completion leaves of the engine: the latched command, ERR and ERRCODE, and every register but X[RD]; NOP leaves
X[RD] too, and only ISPRIME draws (40_command_lifecycle.md R106, R110). -/
theorem exec_busy_keeps {i : Instr} {s t : State} (h : exec i s = .next t) (hb : s.engine.status.busy = true) :
    (t.engine.cur = s.engine.cur ∧ t.engine.status.err = s.engine.status.err ∧
      t.engine.status.errcode = s.engine.status.errcode) ∧
    (∀ r : Reg, r ≠ i.fields.rd → t.engine.reg r = s.engine.reg r) ∧
    (i = .nop → t.engine.x = s.engine.x) ∧
    ((∀ rd ra n, i ≠ .isprime rd ra n) → t.draws = s.draws) := by
  obtain rfl := Host.Outcome.next.inj ((exec_busy hb).symm.trans h)
  refine ⟨by simp, fun r hr => writeOut_reg_ne _ _ _ _ hr, ?_, fun hi => ?_⟩
  · rintro rfl; rfl
  · simp [drawn_eq_zero i hi]

/-- Settles O34: submission and completion each have their frame, and both keep the rest. -/
theorem commandFrame : Obligations.CommandFrame := by
  intro i s
  obtain ⟨t, h⟩ := exec_next i s
  obtain ⟨hctrl, hlast, hovr⟩ := exec_keeps h
  obtain ⟨hsched, hresp⟩ := exec_env h
  refine ⟨t, h, ?_⟩
  cases hb : s.engine.status.busy with
  | false =>
    obtain ⟨hx, hdraws, hflags⟩ := exec_idle_keeps h hb
    exact ⟨fun r _ => by simp [Engine.reg, hx], fun _ => ⟨hx, hdraws, hflags⟩, by simp, fun _ => hx, fun _ => hdraws,
      hctrl, hlast, hovr, hsched, hresp⟩
  | true =>
    obtain ⟨hcur, hreg, hnop, hdraws⟩ := exec_busy_keeps h hb
    exact ⟨hreg, by simp, fun _ => hcur, hnop, hdraws, hctrl, hlast, hovr, hsched, hresp⟩

/-! ### The words of ID, PARAM, CTRL, STATUS and CMD -/

/-- Settles O14: both words are read from constants, and `writeWord` ignores them. -/
theorem idAndParamAreConstant : Obligations.IdAndParamAreConstant := by
  refine ⟨fun s rest => ⟨fun hs => ?_, fun hs => ?_, fun v hs => ?_⟩, by decide⟩
  · exact step_read hs (by decide) (by decide)
  · exact step_read hs (by decide) (by decide)
  · rcases hs with hs | hs <;>
      rw [step_cons hs, runEvent_write, busWrite_word (by decide) (by decide)] <;> rfl

/-- CTRL's word as a number: MR_COMPAT in bit 1 and IE in bit 0 (10_state.md R27). -/
theorem Ctrl.word_eq (c : Ctrl) : c.word = BitVec.ofNat 32 (2 * c.mrCompat.toNat + c.ie.toNat) := by
  obtain ⟨ie, mr⟩ := c
  cases ie <;> cases mr <;> rfl

/-- Settles O16: `writeCtrl` by its three cases, and the read by CTRL's word. -/
theorem ctrlWriteAndRead : Obligations.CtrlWriteAndRead := by
  refine fun s rest => ⟨fun v hs => ⟨fun h3 => ?_, fun h3 hna => ?_, fun h3 h2 hb => ?_⟩, fun hs => ?_⟩
  · exact ⟨Latched.reset, by rw [step_ctrl hs, writeCtrl_srst h3]; rfl⟩
  · rw [step_ctrl hs, writeCtrl_plain h3, if_neg (by simpa using hna)]; rfl
  · rw [step_ctrl hs, writeCtrl_plain h3, if_pos (by simp [h2, hb])]; rfl
  · rw [step_read hs (by decide) (by decide), ← Ctrl.word_eq]; rfl

/-- A W1C bit by bit: each field is cleared where its bit is 1 (10_state.md R29). -/
theorem Status.w1c_eq (st : Status) (v : Word) :
    st.w1c v = { st with
      done := if v[1] then false else st.done
      err := if v[2] then false else st.err
      errcode := if v[2] then .none else st.errcode
      ovr := if v[5] then false else st.ovr } := by
  cases h1 : v[1] <;> cases h2 : v[2] <;> cases h5 : v[5] <;> simp [Status.w1c, h1, h2, h5]

/-- While BUSY no outcome stands, so a W1C can change OVR only (10_state.md R29). -/
theorem Status.w1c_busy_eq {st : Status} (v : Word) (h : st.Consistent) (hb : st.busy = true) :
    st.w1c v = { st with ovr := if v[5] then false else st.ovr } := by
  obtain ⟨hbusy, herr, -, -⟩ := h
  obtain ⟨hd, he, -, -⟩ := hbusy hb
  have hc : st.errcode = .none := by simpa [he] using herr
  simp [Status.w1c_eq, hd, he, hc]

/-- Fields put side by side read as a sum, the left one shifted past the right one. -/
theorem toNat_append_eq_add {m n : Nat} (x : BitVec m) (y : BitVec n) :
    (x ++ y).toNat = x.toNat * 2 ^ n + y.toNat := by
  rw [BitVec.toNat_append, ← Nat.shiftLeft_add_eq_or_of_lt y.isLt, Nat.shiftLeft_eq]

/-- STATUS's word as a number: each field at the place 10_state.md R28 gives it. -/
theorem Status.word_toNat (st : Status) :
    st.word.toNat = st.busy.toNat + 2 * st.done.toNat + 4 * st.err.toNat + 8 * st.noinv.toNat + 16 * st.prime.toNat +
      32 * st.ovr.toNat + 256 * st.errcode.code.toNat := by
  simp only [Status.word, toNat_append_eq_add, BitVec.toNat_ofBool, BitVec.toNat_ofNat]
  omega

/-- Settles O17: `Status.w1c` field by field, the invariant while BUSY, and the read by STATUS's word. -/
theorem statusWriteAndRead : Obligations.StatusWriteAndRead := by
  refine fun s rest => ⟨fun v hs => ?_, fun v hi hb hs => ?_, fun hs => ?_⟩
  · rw [step_status hs, ← Status.w1c_eq]; rfl
  · rw [step_status hs, ← Status.w1c_busy_eq v hi.1 hb]; rfl
  · exact ⟨s.engine.status.word, step_read hs (by decide) (by decide), s.engine.status.word_toNat⟩

/-- A CMD write is answered, and LASTCMD takes its word while idle only (10_state.md R30). -/
theorem submitWord_lastCmd (v : Word) (s : State) :
    ∃ t, submitWord v s = .next t ∧ t.engine.lastCmd = if s.engine.status.busy then s.engine.lastCmd else v := by
  cases hb : s.engine.status.busy with
  | true => exact ⟨_, submitWord_busy hb, rfl⟩
  | false =>
    cases hd : decode v with
    | none => exact ⟨_, submitWord_illegal hb hd, rfl⟩
    | some i =>
      obtain ⟨t, ht⟩ := exec_next i (beginCommand v s)
      obtain ⟨-, hlast, -⟩ := exec_keeps ht
      exact ⟨t, (submitWord_legal hb hd).trans ht, hlast⟩

/-- Settles O18, by what `submitWord` does to LASTCMD in each state. -/
theorem cmdReadsTheLastDecodedWord : Obligations.CmdReadsTheLastDecodedWord := by
  refine ⟨fun s v rest hs => ?_, fun s rest hs => step_read hs (by decide) (by decide), rfl⟩
  rw [step_cmd hs]
  exact submitWord_lastCmd v _

/-! ### The latched command while idle -/

/-- `s` with another latched command. -/
def State.relatch (c : Latched) (s : State) : State := { s with engine := { s.engine with cur := c } }

/-- The answers of two idle engines that differ in the latched command `c`: the same answer, or two idle states that
again differ in it (10_state.md R37). -/
inductive SameButLatched (c : Latched) : Result → Result → Prop
  | same (r : Result) : SameButLatched c r r
  | latched (t : State) (hb : t.engine.status.busy = false) : SameButLatched c (.next t) (.next (t.relatch c))

/-- No read returns the latched command or draws by it. -/
theorem busRead_relatch (off : Nat) (width : Width) (c : Latched) {s : State} (hb : s.engine.status.busy = false) :
    SameButLatched c (busRead off width s) (busRead off width (s.relatch c)) := by
  by_cases ho : Config.aperture ≤ off
  · rw [busRead_outside ho, busRead_outside ho]
    exact .same _
  cases hm : malformed off width with
  | true =>
    rw [busRead_malformed (by omega) hm, busRead_malformed (by omega) hm]
    exact .latched (respond .busError s) hb
  | false =>
    obtain ⟨rfl, ha⟩ := malformed_eq_false.mp hm
    have hword : ∀ free tgt, readWord (s.relatch c).engine free tgt = readWord s.engine free tgt := by
      intro free tgt; cases tgt <;> rfl
    have hdraws : ∀ tgt, readDraws (s.relatch c).engine tgt = readDraws s.engine tgt := by
      intro tgt; cases tgt <;> rfl
    rw [busRead_word (by omega) ha, busRead_word (by omega) ha, hword, hdraws]
    exact .latched { s with response := _, draws := _ } hb

/-- A command is checked on a snapshot of its own, and accepting it overwrites the latched command. -/
theorem exec_relatch (i : Instr) (c : Latched) {s : State} (hb : s.engine.status.busy = false) :
    SameButLatched c (exec i s) (exec i (s.relatch c)) := by
  cases hc : checkOf i (snapshot i s.engine) with
  | some code =>
    rw [exec_idle_error hb hc, exec_idle_error (s := s.relatch c) hb hc]
    exact .latched (raiseError code s) rfl
  | none =>
    rw [exec_idle_accept hb hc, exec_idle_accept (s := s.relatch c) hb hc]
    exact .same _

theorem submitWord_relatch (v : Word) (c : Latched) {s : State} (hb : s.engine.status.busy = false) :
    SameButLatched c (submitWord v s) (submitWord v (s.relatch c)) := by
  cases hd : decode v with
  | none =>
    rw [submitWord_illegal hb hd, submitWord_illegal (s := s.relatch c) hb hd]
    exact .latched (raiseError .illegalCmd (beginCommand v s)) rfl
  | some i =>
    rw [submitWord_legal hb hd, submitWord_legal (s := s.relatch c) hb hd]
    exact exec_relatch i c (s := beginCommand v s) hb

theorem writeCtrl_relatch (v : Word) (c : Latched) {s : State} (hb : s.engine.status.busy = false) :
    SameButLatched c (.next (writeCtrl v s)) (.next (writeCtrl v (s.relatch c))) := by
  cases h3 : v[3] with
  | true =>
    rw [writeCtrl_srst h3, writeCtrl_srst h3]
    exact .same _
  | false =>
    have hb' : (s.relatch c).engine.status.busy = false := hb
    rw [writeCtrl_plain h3, writeCtrl_plain h3, hb, hb', Bool.and_false]
    exact .latched (s.withEngine { s.engine with ctrl := .ofWord v }) hb

theorem writeWord_relatch (v : Word) (tgt : Target) (c : Latched) {s : State} (hb : s.engine.status.busy = false) :
    SameButLatched c (writeWord v s tgt) (writeWord v (s.relatch c) tgt) := by
  cases tgt with
  | id | param | reserved => exact .latched s hb
  | ctrl => exact writeCtrl_relatch v c hb
  | status => exact .latched (writeStatus v s) hb
  | cmd => exact submitWord_relatch v c hb
  | limb i j =>
    rw [writeWord, writeWord, writeLimb_idle hb, writeLimb_idle (s := s.relatch c) hb]
    exact .latched (s.withEngine (s.engine.setReg i (setLimb (s.engine.reg i) j v))) hb

theorem busWrite_relatch (off : Nat) (width : Width) (v : Word) (c : Latched) {s : State}
    (hb : s.engine.status.busy = false) :
    SameButLatched c (busWrite off width v s) (busWrite off width v (s.relatch c)) := by
  by_cases ho : Config.aperture ≤ off
  · rw [busWrite_outside ho, busWrite_outside ho]
    exact .same _
  cases hm : malformed off width with
  | true =>
    rw [busWrite_malformed (by omega) hm, busWrite_malformed (by omega) hm]
    exact .latched (respond .busError s) hb
  | false =>
    obtain ⟨rfl, ha⟩ := malformed_eq_false.mp hm
    rw [busWrite_word (by omega) ha, busWrite_word (by omega) ha]
    exact writeWord_relatch v (target off) c (s := respond .okay s) hb

theorem engineStep_relatch (c : Latched) {s : State} (hb : s.engine.status.busy = false) :
    SameButLatched c (engineStep s) (engineStep (s.relatch c)) := by
  rw [engineStep_idle hb, engineStep_idle (s := s.relatch c) hb]
  exact .latched s hb

/-- While idle no input reads the latched command (10_state.md R37). -/
theorem step_relatch (c : Latched) {s : State} (hb : s.engine.status.busy = false) :
    SameButLatched c (step s) (step (s.relatch c)) := by
  cases hs : s.schedule with
  | nil =>
    rw [step_nil hs, step_nil (s := s.relatch c) hs]
    exact engineStep_relatch c hb
  | cons ev rest =>
    rw [step_cons hs, step_cons (s := s.relatch c) hs]
    cases ev with
    | read off width => exact busRead_relatch off width c (s := { s with schedule := rest }) hb
    | write off width v => exact busWrite_relatch off width v c (s := { s with schedule := rest }) hb
    | complete => exact engineStep_relatch c (s := { s with schedule := rest }) hb
    | reset => exact .same _

/-- Settles O57: the two steps' answers are `SameButLatched`, and where they differ the engine is idle. -/
theorem latchedCommandIsUnreadWhileIdle : Obligations.LatchedCommandIsUnreadWhileIdle := by
  intro s t c hb h
  change ∃ u, step (s.relatch c) = .next u ∧ _
  have hrel := step_relatch c hb
  rw [h] at hrel
  generalize step (s.relatch c) = r at hrel ⊢
  cases hrel with
  | same => exact ⟨t, rfl, rfl, fun _ => rfl⟩
  | latched _ hb' => exact ⟨t.relatch c, rfl, rfl, by simp [hb']⟩

end Sys2Proof.Machine
end

section
/-! PROOFS. The statements of the family 20_memory.md: what the bus answers to each access of the aperture, and that no host
access short of ABORT and SRST disturbs a running command. -/

namespace Sys2Proof.Machine

/-! ### Accesses of the aperture -/

/-- An access is malformed when it is not a word or not aligned (20_memory.md R53). -/
theorem malformed_eq_true {off : Nat} {width : Width} :
    malformed off width = true ↔ width ≠ .word ∨ off % 4 ≠ 0 := by
  simp [malformed]

/-- The next input is an aligned 32-bit write (20_memory.md R52). -/
theorem step_write {s : State} {off : Nat} {v : Word} {rest : List Event} (hs : s.schedule = .write off .word v :: rest)
    (h : off < Config.aperture) (ha : off % 4 = 0) :
    step s = writeWord v (respond .okay { s with schedule := rest }) (target off) := by
  rw [step_cons hs, runEvent_write, busWrite_word h ha]

/-- The next input is a malformed access: both kinds get ERROR (20_memory.md R53). -/
theorem step_malformed {s : State} {off : Nat} {width : Width} {v : Word} {rest : List Event}
    (h : off < Config.aperture) (hm : malformed off width = true)
    (hs : s.schedule = .read off width :: rest ∨ s.schedule = .write off width v :: rest) :
    step s = .next (respond .busError { s with schedule := rest }) := by
  rcases hs with hs | hs
  · rw [step_cons hs, runEvent_read, busRead_malformed h hm]
  · rw [step_cons hs, runEvent_write, busWrite_malformed h hm]

/-- The next input is an access beyond the aperture: both kinds stop the machine (20_memory.md R56, log 10). -/
theorem step_outside {s : State} {off : Nat} {width : Width} {v : Word} {rest : List Event} (h : Config.aperture ≤ off)
    (hs : s.schedule = .read off width :: rest ∨ s.schedule = .write off width v :: rest) :
    step s = .fault (.outsideAperture off) := by
  rcases hs with hs | hs
  · rw [step_cons hs, runEvent_read, busRead_outside h]
  · rw [step_cons hs, runEvent_write, busWrite_outside h]

/-- Settles O9: such an access is `malformed`, which reads and writes answer alike. -/
theorem malformedAccessGetsError : Obligations.MalformedAccessGetsError := by
  intro s off width v rest h hm hs
  exact step_malformed h (malformed_eq_true.mpr hm) hs

/-- Settles O15: a malformed read gets ERROR and a well-formed one its word, and neither touches the engine. -/
theorem readsHaveNoSideEffect : Obligations.ReadsHaveNoSideEffect := by
  intro s off width rest hs h
  cases hm : malformed off width with
  | true =>
    refine ⟨.busError, s.draws, step_malformed (v := 0) h hm (.inl hs), by decide, fun hw ha => ?_⟩
    simp [malformed_eq_false.mpr ⟨hw, ha⟩] at hm
  | false =>
    obtain ⟨rfl, ha⟩ := malformed_eq_false.mp hm
    exact ⟨_, _, step_read hs h ha, by simp, fun _ _ => ⟨_, rfl⟩⟩

/-! ### The X window -/

/-- While idle a window word reads as its limb, and the read draws nothing (20_memory.md R55). -/
theorem step_read_limb_idle {s : State} {i : Reg} {j : Fin 128} {rest : List Event} (hb : s.engine.status.busy = false)
    (hs : s.schedule = .read (limbOffset i j) .word :: rest) :
    step s = .next { s with schedule := rest, response := .data (limb (s.engine.reg i) j) } := by
  obtain ⟨hlt, hal⟩ := limbOffset_lt i j
  rw [step_read hs hlt hal, target_limbOffset]
  simp [readWord, readDraws, hb]

/-- A limb write replaces that limb of that register, and no other limb of any register (20_memory.md R55). -/
theorem limb_reg_setLimb (e : Engine) (i i' : Reg) (j j' : Fin 128) (v : Word) :
    limb ((e.setReg i (setLimb (e.reg i) j v)).reg i') j' =
      if i' = i ∧ j' = j then v else limb (e.reg i') j' := by
  rw [reg_setReg]
  by_cases hi : i' = i
  · subst hi
    by_cases hj : j' = j
    · subst hj; simp
    · simp [hj, limb_setLimb_ne _ v hj]
  · simp [hi]

/-- Settles O10: the offset is `limbOffset i j`, which reads and writes reach as limb j of Xi. -/
theorem windowReadsAndWritesLimbs : Obligations.WindowReadsAndWritesLimbs := by
  intro s i j rest hb
  rw [← limbOffset_eq]
  refine ⟨step_read_limb_idle hb, fun v hs => ?_⟩
  refine ⟨_, (step_limb hs).trans (congrArg _ (writeLimb_idle hb)), fun i' j' => ?_, rfl⟩
  exact limb_reg_setLimb s.engine i i' j j' v

/-- Settles O12: every aligned word of the window is a limb, whose write while BUSY is `setOvr`. -/
theorem windowIsClosedWhileBusy : Obligations.WindowIsClosedWhileBusy := by
  intro s off rest hb hlo hhi ha
  refine ⟨fun v hs => ?_, fun hs => ⟨_, _, step_read hs hhi ha⟩⟩
  obtain ⟨i, j, rfl⟩ := window_offset hlo hhi ha
  exact (step_limb hs).trans (congrArg _ (writeLimb_busy hb))

/-! ### The reserved offsets and bits -/

/-- CTRL's bits 31 to 4 are among those that read as 0 (10_state.md R26). -/
theorem Ctrl.word_reserved_high (c : Ctrl) : c.word &&& 0xFFFFFFF0 = 0 :=
  calc c.word &&& 0xFFFFFFF0 = c.word &&& 0xFFFFFFFC &&& 0xFFFFFFF0 := by rw [BitVec.and_assoc]; rfl
    _ = 0 := by rw [c.word_reserved]; rfl

/-- Bits 31 to 4 do not matter in a CTRL write (10_state.md R26). -/
theorem writeCtrl_and (v : Word) (s : State) : writeCtrl (v &&& 0x0000000F) s = writeCtrl v s := by
  simp [writeCtrl, Ctrl.ofWord]

/-- Bits 31 to 12, 7 and 6 do not matter in a STATUS write (10_state.md R28, R29). -/
theorem writeStatus_and (v : Word) (s : State) :
    writeStatus (v &&& 0x00000FFF &&& ~~~0x000000C0) s = writeStatus v s := by
  simp [writeStatus, Status.w1c_eq]

/-- Settles O13: the map's `.reserved`, `.id` and `.param`, the words' reserved bits, and the aperture's end. -/
theorem reservedSpaceIsReadZeroWriteIgnored : Obligations.ReservedSpaceIsReadZeroWriteIgnored := by
  have in_aperture : ∀ {off : Nat}, off < Config.xBase → off < Config.aperture := fun h => h.trans (by decide)
  refine ⟨fun s off rest hlo hhi ha => ⟨fun hs => ?_, fun v hs => ?_⟩, fun s off v rest hoff hs => ?_, fun e => ?_,
    fun s v rest => ⟨?_, ?_⟩, fun s off width v rest => step_outside⟩
  · rw [step_read hs (in_aperture hhi) ha, target_reserved hlo hhi]; rfl
  · rw [step_write hs (in_aperture hhi) ha, target_reserved hlo hhi]; rfl
  · rcases hoff with rfl | rfl <;> exact step_write hs (by decide) (by decide)
  · exact ⟨e.ctrl.word_reserved_high, e.status.word_reserved, by decide⟩
  · rw [step_ctrl rfl, step_ctrl rfl, writeCtrl_and]
  · rw [step_status rfl, step_status rfl, writeStatus_and]

/-! ### A running command -/

/-- What the host's accesses keep of a running engine `e`, seen at the later engine `e'`: the registers, the command, BUSY,
and that neither DONE nor ERR stands (20_memory.md R66; 40_command_lifecycle.md R103, R105). -/
structure Engine.StillRunning (e e' : Engine) : Prop where
  x : e'.x = e.x
  cur : e'.cur = e.cur
  lastCmd : e'.lastCmd = e.lastCmd
  busy : e'.status.busy = true
  done : e.status.done = false → e'.status.done = false
  err : e.status.err = false → e'.status.err = false

theorem Engine.StillRunning.refl {e : Engine} (hb : e.status.busy = true) : e.StillRunning e :=
  ⟨rfl, rfl, rfl, hb, id, id⟩

theorem Engine.StillRunning.trans {e e' e'' : Engine} (h : e.StillRunning e') (h' : e'.StillRunning e'') :
    e.StillRunning e'' :=
  ⟨h'.x.trans h.x, h'.cur.trans h.cur, h'.lastCmd.trans h.lastCmd, h'.busy, h'.done ∘ h.done, h'.err ∘ h.err⟩

/-- Only offset 0x008 is CTRL (10_state.md R25). -/
theorem target_eq_ctrl {off : Nat} (h : target off = .ctrl) : off = 0x008 := by
  unfold target at h
  split_ifs at h
  assumption

/-- While BUSY a write of a word, if not a CTRL write with ABORT or SRST, can only write CTRL, clear outcome bits or set OVR. -/
theorem writeWord_running {v : Word} {s : State} {tgt : Target} (hb : s.engine.status.busy = true)
    (hc : tgt = .ctrl → v[2] = false ∧ v[3] = false) :
    ∃ t, writeWord v s tgt = .next t ∧ t.schedule = s.schedule ∧ s.engine.StillRunning t.engine := by
  cases tgt with
  | id | param | reserved => exact ⟨s, rfl, rfl, .refl hb⟩
  | ctrl =>
    obtain ⟨h2, h3⟩ := hc rfl
    refine ⟨_, rfl, ?_⟩
    rw [writeCtrl_plain h3, h2, Bool.false_and, if_neg Bool.false_ne_true]
    exact ⟨rfl, rfl, rfl, rfl, hb, id, id⟩
  | status =>
    refine ⟨_, rfl, rfl, rfl, rfl, rfl, hb, fun hd => ?_, fun he => ?_⟩
    · simp [writeStatus, hd]
    · simp [writeStatus, he]
  | cmd => exact ⟨_, submitWord_busy hb, rfl, rfl, rfl, rfl, hb, id, id⟩
  | limb i j => exact ⟨_, congrArg _ (writeLimb_busy hb), rfl, rfl, rfl, rfl, hb, id, id⟩

/-- One host access without ABORT and SRST is answered and leaves a running command running (20_memory.md R66). -/
theorem step_running {s : State} {ev : Event} {rest : List Event} (hb : s.engine.status.busy = true)
    (hev : ev.leavesRunning = true) (hs : s.schedule = ev :: rest) :
    ∃ t, step s = .next t ∧ t.schedule = rest ∧ s.engine.StillRunning t.engine := by
  rw [step_cons hs]
  cases ev with
  | complete | reset => cases hev
  | read off width =>
    have hin : off < Config.aperture := of_decide_eq_true hev
    rcases busRead_cases off width { s with schedule := rest } with ⟨hout, -⟩ | ⟨-, r, d, h⟩
    · omega
    · exact ⟨_, h, rfl, .refl hb⟩
  | write off width v =>
    simp only [Event.leavesRunning, Bool.and_eq_true, decide_eq_true_eq] at hev
    obtain ⟨hin, hplain⟩ := hev
    rcases busWrite_cases off width v { s with schedule := rest } with ⟨hout, -⟩ | ⟨-, -, h⟩ | ⟨-, hm, h⟩
    · omega
    · exact ⟨_, h, rfl, .refl hb⟩
    · obtain ⟨rfl, -⟩ := malformed_eq_false.mp hm
      have hctrl : target off = .ctrl → v[2] = false ∧ v[3] = false := fun ht => by
        simpa [target_eq_ctrl ht] using hplain
      rw [runEvent_write, h]
      exact writeWord_running (s := respond .okay { s with schedule := rest }) hb hctrl

/-- Any series of such accesses is answered and leaves the command running: induction on the series. -/
theorem run_running {evs rest : List Event} {s : State} (hb : s.engine.status.busy = true)
    (hevs : evs.all Event.leavesRunning = true) (hs : s.schedule = evs ++ rest) :
    ∃ t, Host.Core.run core evs.length s = .next t ∧ t.schedule = rest ∧ s.engine.StillRunning t.engine := by
  induction evs generalizing s with
  | nil => exact ⟨s, rfl, hs, .refl hb⟩
  | cons ev evs ih =>
    rw [List.all_cons, Bool.and_eq_true] at hevs
    obtain ⟨hev, hevs⟩ := hevs
    obtain ⟨u, hstep, hsu, hu⟩ := step_running hb hev hs
    obtain ⟨t, hrun, hst, ht⟩ := ih hu.busy hevs hsu
    exact ⟨t, (run_succ hstep).trans hrun, hst, hu.trans ht⟩

/-- Settles O44, from what the series keeps of the running engine. -/
theorem hostCannotDisturbARunningCommand : Obligations.HostCannotDisturbARunningCommand := by
  intro evs rest s hb hevs hs
  obtain ⟨t, hrun, hst, ht⟩ := run_running hb hevs hs
  exact ⟨t, hrun, hst, ht.x, ht.cur, ht.lastCmd, ht.busy, ht.done, ht.err⟩

end Sys2Proof.Machine
end

section
/-! PROOFS. The statements of the family 30_encoding.md: the decoder and the encoder are inverse, the words that are no
command, and the host's WRX and RDX of an operand. -/

namespace Sys2Proof

/-! ### The rows of the opcode map -/

/-- Every command's row is a row of the full map (R85). -/
theorem Instr.row_mem_rows (i : Instr) : i.row ∈ rows true := by
  cases i <;> simp [Instr.row, rows]

/-- An engine without the option has no row that the full map lacks (R88). -/
theorem rows_subset (hasMont : Bool) : rows hasMont ⊆ rows true := by
  cases hasMont <;> decide

/-- MONTMUL's row needs the option (R88). -/
theorem montmulRow_mem {hasMont : Bool} : montmulRow ∈ rows hasMont ↔ hasMont = true := by
  cases hasMont <;> decide

/-- Every row is some command's (R85, R90). -/
theorem exists_row_eq {r : Row} (h : r ∈ rows true) : ∃ i : Instr, i.row = r := by
  simp only [rows, if_true, List.cons_append, List.nil_append, List.mem_cons, List.not_mem_nil, or_false] at h
  rcases h with rfl | rfl | rfl | rfl | rfl | rfl | rfl | rfl | rfl
  exacts [⟨.nop, rfl⟩, ⟨.gcd 0 0 0, rfl⟩, ⟨.modinv 0 0 0, rfl⟩, ⟨.modexp 0 0 0 0, rfl⟩, ⟨.modmul 0 0 0 0, rfl⟩,
    ⟨.modred 0 0 0, rfl⟩, ⟨.montmul 0 0 0 0, rfl⟩, ⟨.mrround 0 0 0, rfl⟩, ⟨.isprime 0 0 0, rfl⟩]

/-- Every row's mask covers OP (R85). -/
theorem opField_mask {r : Row} (h : r ∈ rows true) : opField r.mask = 0x3F :=
  (by decide : ∀ r ∈ rows true, opField r.mask = 0x3F) r h

/-- Two rows of the map that both match a word are the same: each mask covers OP, and no two share their OP (R85). -/
theorem row_eq_of_hits {v : Word} {r₁ r₂ : Row} (hr₁ : r₁ ∈ rows true) (hr₂ : r₂ ∈ rows true)
    (h₁ : r₁.hits v = true) (h₂ : r₂.hits v = true) : r₁ = r₂ := by
  have op_names_row : ∀ r ∈ rows true, ∀ r' ∈ rows true, opField r.val = opField r'.val → r = r' := by decide
  have hop : opField r₁.val = opField r₂.val :=
    (opField_of_hits (opField_mask hr₁) h₁).symm.trans (opField_of_hits (opField_mask hr₂) h₂)
  exact op_names_row r₁ hr₁ r₂ hr₂ hop

/-- Settles O2: OP tells the rows apart. -/
theorem opcodeRowsAreDisjoint : Obligations.OpcodeRowsAreDisjoint :=
  fun _ _ hr₁ _ hr₂ => row_eq_of_hits hr₁ hr₂

/-! ### The decoder by rows -/

/-- The command of `i`'s row with the fields of the word `v`: what the decoder makes of `v` if it hits the row (R91). -/
def Instr.reread (v : Word) : Instr → Instr
  | .nop => .nop
  | .gcd _ _ _ => .gcd (rdField v) (raField v) (rbField v)
  | .modinv _ _ _ => .modinv (rdField v) (raField v) (rmField v)
  | .modexp _ _ _ _ => .modexp (rdField v) (raField v) (rbField v) (rmField v)
  | .modmul _ _ _ _ => .modmul (rdField v) (raField v) (rbField v) (rmField v)
  | .modred _ _ _ => .modred (rdField v) (raField v) (rmField v)
  | .montmul _ _ _ _ => .montmul (rdField v) (raField v) (rbField v) (rmField v)
  | .mrround _ _ _ => .mrround (rdField v) (raField v) (rbField v)
  | .isprime _ _ _ => .isprime (rdField v) (raField v) (immField v)

/-- IMM holds at most ITERS_MAX (R81, R93). -/
theorem immField_le (v : Word) : immField v ≤ Config.itersMax :=
  Nat.le_of_lt_succ (v.extractLsb' 20 12).isLt

/-- A decoded command is one of the engine; the word hits its row, and its fields are the word's (R91). -/
theorem decodeWith_spec {hasMont : Bool} {v : Word} {i : Instr} (h : decodeWith hasMont v = some i) :
    i.wellFormedWith hasMont = true ∧ i.row.hits v = true ∧ i.reread v = i := by
  unfold decodeWith at h
  split_ifs at h with h₀ h₁ h₂ h₃ h₄ h₅ h₆ h₈ h₉ <;> cases h
  · exact ⟨rfl, h₀, rfl⟩
  · exact ⟨rfl, h₁, rfl⟩
  · exact ⟨rfl, h₂, rfl⟩
  · exact ⟨rfl, h₃, rfl⟩
  · exact ⟨rfl, h₄, rfl⟩
  · exact ⟨rfl, h₅, rfl⟩
  · obtain ⟨hopt, h₆⟩ := Bool.and_eq_true_iff.mp h₆
    exact ⟨hopt, h₆, rfl⟩
  · exact ⟨rfl, h₈, rfl⟩
  · exact ⟨decide_eq_true (immField_le v), h₉, rfl⟩

/-- A word that hits a row of the map decodes to the row's command: no other row stands in its way (R85, R91). -/
theorem decodeWith_of_hits {hasMont : Bool} {v : Word} {i : Instr} (hr : i.row ∈ rows hasMont)
    (hv : i.row.hits v = true) : decodeWith hasMont v = some (i.reread v) := by
  have hits_iff : ∀ r ∈ rows true, (r.hits v = true ↔ r = i.row) := fun r hr' =>
    ⟨fun h => row_eq_of_hits hr' i.row_mem_rows h hv, fun h => h ▸ hv⟩
  simp only [rows, if_true, List.cons_append, List.nil_append, List.forall_mem_cons] at hits_iff
  obtain ⟨h₀, h₁, h₂, h₃, h₄, h₅, h₆, h₈, h₉, -⟩ := hits_iff
  -- each `hits` test is now a comparison of two rows; MONTMUL's asks for the option besides
  cases i <;> simp +decide [decodeWith, h₀, h₁, h₂, h₃, h₄, h₅, h₆, h₈, h₉, Instr.row, Instr.reread]
  case montmul => exact montmulRow_mem.mp hr

/-- A well-formed command's row is in the map (R85, R88). -/
theorem Instr.row_mem_rows_of_wellFormedWith {hasMont : Bool} {i : Instr} (h : i.wellFormedWith hasMont = true) :
    i.row ∈ rows hasMont := by
  cases i with
  | montmul => exact montmulRow_mem.mpr h
  | _ => simp [Instr.row, rows]

/-- A word is illegal exactly when it hits no row of the map (R87). -/
theorem decodeWith_eq_none_iff {hasMont : Bool} {v : Word} :
    decodeWith hasMont v = none ↔ ∀ r ∈ rows hasMont, r.hits v = false := by
  constructor
  · intro h r hr
    obtain ⟨i, rfl⟩ := exists_row_eq (rows_subset hasMont hr)
    by_contra hv
    rw [decodeWith_of_hits hr (Bool.eq_true_of_not_eq_false hv)] at h
    cases h
  · intro h
    by_contra hd
    obtain ⟨i, hi⟩ := Option.ne_none_iff_exists'.mp hd
    obtain ⟨hwf, hv, -⟩ := decodeWith_spec hi
    rw [h _ (Instr.row_mem_rows_of_wellFormedWith hwf)] at hv
    cases hv

/-! ### The decoder and the encoder -/

/-- A row's mask fixes every field it covers (R85, R86). -/
theorem extractLsb'_of_hits {r : Row} {v : Word} (h : r.hits v = true) {a n : Nat}
    (hm : r.mask.extractLsb' a n = BitVec.allOnes n) : v.extractLsb' a n = r.val.extractLsb' a n := by
  have hand : v &&& r.mask = r.val := eq_of_beq h
  rw [← hand, BitVec.extractLsb'_and, hm, BitVec.and_allOnes]

/-! The same, for the fields that some command leaves unused. -/

theorem rbField_of_hits {r : Row} {v : Word} (h : r.hits v = true)
    (hm : r.mask.extractLsb' 12 3 = BitVec.allOnes 3) : rbField v = rbField r.val :=
  congrArg BitVec.toFin (extractLsb'_of_hits h hm)

theorem rmField_of_hits {r : Row} {v : Word} (h : r.hits v = true)
    (hm : r.mask.extractLsb' 15 3 = BitVec.allOnes 3) : rmField v = rmField r.val :=
  congrArg BitVec.toFin (extractLsb'_of_hits h hm)

theorem immField_of_hits {r : Row} {v : Word} (h : r.hits v = true)
    (hm : r.mask.extractLsb' 20 12 = BitVec.allOnes 12) : immField v = immField r.val :=
  congrArg BitVec.toNat (extractLsb'_of_hits h hm)

/-- The fields of a word (R81). -/
def Fields.ofWord (v : Word) : Fields := ⟨opField v, rdField v, raField v, rbField v, rmField v, immField v⟩

/-- The mask of a command's row covers the fields it does not use, so they are 0 in a word that hits the row (R86). -/
theorem fields_reread {i : Instr} {v : Word} (h : i.row.hits v = true) : (i.reread v).fields = Fields.ofWord v := by
  cases i <;> simp only [Instr.row] at h
  case nop =>
    have hv : v = 0 := (BitVec.and_allOnes (x := v)).symm.trans (eq_of_beq h)
    rw [hv]; rfl
  case gcd | mrround =>
    rw [Fields.ofWord, opField_of_hits (by decide) h, rmField_of_hits h (by decide), immField_of_hits h (by decide)]
    rfl
  case modinv | modred =>
    rw [Fields.ofWord, opField_of_hits (by decide) h, rbField_of_hits h (by decide), immField_of_hits h (by decide)]
    rfl
  case modexp | modmul | montmul =>
    rw [Fields.ofWord, opField_of_hits (by decide) h, immField_of_hits h (by decide)]
    rfl
  case isprime =>
    rw [Fields.ofWord, opField_of_hits (by decide) h, rbField_of_hits h (by decide), rmField_of_hits h (by decide)]
    rfl

/-- Encoding what was read from a word that hits the row gives the word back (R92). -/
theorem encode_reread {i : Instr} {v : Word} (h : i.row.hits v = true) : encode (i.reread v) = v := by
  have mask_covers_reserved : ∀ r ∈ rows true,
      r.mask.extractLsb' 18 2 = BitVec.allOnes 2 ∧ r.val.extractLsb' 18 2 = 0 := by decide
  obtain ⟨hm, hval⟩ := mask_covers_reserved i.row i.row_mem_rows
  rw [encode, fields_reread h]
  exact word_of_fields ((extractLsb'_of_hits h hm).trans hval)

/-- Every command's word hits its row: the family `EncodedRow`, put together (R85, R92). -/
theorem encode_hits (i : Instr) : i.row.hits (encode i) = true := by
  cases i with
  | nop => exact Laws.EncodedRow.nop
  | gcd rd ra rb => exact Laws.EncodedRow.gcd rd ra rb
  | modinv rd ra rm => exact Laws.EncodedRow.modinv rd ra rm
  | modexp rd ra rb rm => exact Laws.EncodedRow.modexp rd ra rb rm
  | modmul rd ra rb rm => exact Laws.EncodedRow.modmul rd ra rb rm
  | modred rd ra rm => exact Laws.EncodedRow.modred rd ra rm
  | montmul rd ra rb rm => exact Laws.EncodedRow.montmul rd ra rb rm
  | mrround rd ra rb => exact Laws.EncodedRow.mrround rd ra rb
  | isprime rd ra iters => exact Laws.EncodedRow.isprime rd ra iters

/-- A well-formed command's immediate fits IMM (R93). -/
theorem imm_le_of_wellFormedWith {hasMont : Bool} {i : Instr} (h : i.wellFormedWith hasMont = true) :
    i.fields.imm ≤ Config.itersMax := by
  cases i with
  | isprime => exact of_decide_eq_true h
  | _ => exact Nat.zero_le _

/-- Reading a well-formed command's own word back gives the command (R92). -/
theorem reread_encode {hasMont : Bool} {i : Instr} (h : i.wellFormedWith hasMont = true) : i.reread (encode i) = i := by
  have himm : immField (encode i) = i.fields.imm := immField_word (imm_le_of_wellFormedWith h)
  cases i with
  | isprime => simpa [Instr.reread, encode, Instr.fields] using himm
  | _ => simp [Instr.reread, encode, Instr.fields]

/-- A word decodes to a command exactly when the command is well-formed and the word is its encoding (R92). -/
theorem decodeWith_eq_some_iff {hasMont : Bool} {v : Word} {i : Instr} :
    decodeWith hasMont v = some i ↔ i.wellFormedWith hasMont = true ∧ encode i = v := by
  constructor
  · intro h
    obtain ⟨hwf, hv, hi⟩ := decodeWith_spec h
    exact ⟨hwf, hi ▸ encode_reread hv⟩
  · rintro ⟨hwf, rfl⟩
    rw [decodeWith_of_hits (Instr.row_mem_rows_of_wellFormedWith hwf) (encode_hits i), reread_encode hwf]

/-- This engine's decoder (HAS_MONT = 1). -/
theorem decode_eq_some_iff {v : Word} {i : Instr} : decode v = some i ↔ i.WellFormed ∧ encode i = v :=
  decodeWith_eq_some_iff

/-- A field that fits below bit 32 is shifted into the word as it is (R92). -/
theorem toNat_ofNat_shiftLeft {n b k : Nat} (hn : n < 2 ^ b) (hk : b + k ≤ 32) :
    (BitVec.ofNat 32 n <<< k).toNat = n <<< k := by
  have hshift : n <<< k < 2 ^ 32 := calc
    n <<< k = n * 2 ^ k := Nat.shiftLeft_eq n k
    _ < 2 ^ b * 2 ^ k := Nat.mul_lt_mul_of_pos_right hn (Nat.two_pow_pos k)
    _ = 2 ^ (b + k) := (Nat.pow_add 2 b k).symm
    _ ≤ 2 ^ 32 := Nat.pow_le_pow_right (by decide) hk
  have hn' : n < 2 ^ 32 := Nat.lt_of_lt_of_le hn (Nat.pow_le_pow_right (by decide) (by omega))
  rw [BitVec.toNat_shiftLeft, BitVec.toNat_ofNat, Nat.mod_eq_of_lt hn', Nat.mod_eq_of_lt hshift]

/-- The word of fields is the or of the shifted fields, as a number (R92). -/
theorem Fields.toNat_word {f : Fields} (h : f.imm ≤ Config.itersMax) :
    f.word.toNat = f.op.toNat ||| f.rd.val <<< 6 ||| f.ra.val <<< 9 ||| f.rb.val <<< 12 ||| f.rm.val <<< 15 |||
      f.imm <<< 20 := by
  have hop : (f.op.setWidth 32).toNat = f.op.toNat := BitVec.toNat_setWidth_of_le (by decide)
  have hreg (r : Reg) {k : Nat} (hk : 3 + k ≤ 32) : (BitVec.ofNat 32 r.val <<< k).toNat = r.val <<< k :=
    toNat_ofNat_shiftLeft r.isLt hk
  have himm : (BitVec.ofNat 32 f.imm <<< 20).toNat = f.imm <<< 20 :=
    toNat_ofNat_shiftLeft (b := 12) (Nat.lt_succ_of_le h) (by decide)
  simp only [Fields.word, BitVec.toNat_or, hop, hreg _ (by decide : 3 + 6 ≤ 32), hreg _ (by decide : 3 + 9 ≤ 32),
    hreg _ (by decide : 3 + 12 ≤ 32), hreg _ (by decide : 3 + 15 ≤ 32), himm]

/-- Settles O1: the encoder by its fields, the two inverses by `decode_eq_some_iff`. -/
theorem decoderAndEncoderAreInverse : Obligations.DecoderAndEncoderAreInverse :=
  ⟨fun _ hwf => Fields.toNat_word (imm_le_of_wellFormedWith hwf),
    fun _ hwf => decode_eq_some_iff.mpr ⟨hwf, rfl⟩, fun _ _ => decode_eq_some_iff.mp⟩

/-- Settles O5: each word is its command's encoding (R92). -/
theorem workedEncodingsDecode : Obligations.WorkedEncodingsDecode := by
  refine ⟨?_, ?_, ?_, ?_, ?_, ?_⟩ <;> exact decode_eq_some_iff.mpr (by decide)

/-! ### Illegal words -/

/-- No command has a reserved opcode (R87). -/
theorem Instr.op_defined (i : Instr) : ¬ (i.fields.op = 0x07 ∨ 0x0A ≤ i.fields.op) := by
  cases i <;> simp [Instr.fields]

/-- Settles O3: a word that decodes hits a row and is a well-formed command's encoding, with a defined OP and reserved
bits 0. -/
theorem illegalWordsAreRejected : Obligations.IllegalWordsAreRejected := by
  refine ⟨fun v => decodeWith_eq_none_iff, fun v => ?_, fun v hv => ?_,
    fun s v rest hb hs hd => Machine.step_cmd_illegal hb hs hd⟩
  · simp only [Option.eq_none_iff_forall_ne_some, Ne, decode_eq_some_iff, not_exists]
  · rw [Option.eq_none_iff_forall_ne_some]
    intro i hi
    obtain ⟨-, rfl⟩ := decode_eq_some_iff.mp hi
    rw [← or_assoc, encode, opField_word] at hv
    exact hv.elim i.op_defined (absurd (reserved_word _))

/-! ### The Montgomery option -/

/-- Without the option the commands are those of the full engine whose OP is not MONTMUL's (R88). -/
theorem wellFormedWith_false (i : Instr) :
    i.wellFormedWith false = (i.wellFormedWith true && i.fields.op != 0x06) := by
  cases i <;> simp [Instr.wellFormedWith, Instr.fields]

/-- Settles O4: which commands exist is `wellFormedWith_false`, and a command's OP is its word's. -/
theorem montmulNeedsItsOption : Obligations.MontmulNeedsItsOption := by
  have decodes_iff (v : Word) (i : Instr) :
      decodeWith false v = some i ↔ decodeWith true v = some i ∧ opField v ≠ 0x06 := by
    simp only [decodeWith_eq_some_iff, wellFormedWith_false, Bool.and_eq_true, bne_iff_ne, and_assoc]
    exact and_congr_right fun _ => by
      rw [and_comm]
      exact and_congr_right fun h => by rw [← h, encode, opField_word]
  refine ⟨by decide, fun v hop => ?_, fun v hop => Option.ext fun i => ?_, fun rd ra rb rm => ?_⟩
  · exact Option.eq_none_iff_forall_ne_some.mpr fun i hi => ((decodes_iff v i).mp hi).2 hop
  · rw [decodes_iff, and_iff_left hop]
  · exact decode_eq_some_iff.mpr ⟨rfl, rfl⟩

end Sys2Proof

namespace Sys2Proof.Machine

/-! ### Operands loaded and read back by their limbs -/

/-- A second write of a register replaces the first. -/
theorem setReg_setReg (e : Engine) (r : Reg) (v w : Operand) : (e.setReg r v).setReg r w = e.setReg r w := by
  simp [Engine.setReg]

/-- Two operands with the same limbs are equal (R54). -/
theorem operand_ext {x y : Operand} (h : ∀ j, limb x j = limb y j) : x = y := by
  apply BitVec.eq_of_getLsbD_eq
  intro k hk
  have hbit : ∀ z : Operand, z.getLsbD k = (limb z ⟨k / 32, by omega⟩).getLsbD (k % 32) := fun z => by
    rw [getLsbD_limb, Nat.div_add_mod, decide_eq_true (Nat.mod_lt k (by decide)), Bool.true_and]
  rw [hbit, hbit, h]

/-- The operand `x` once the limbs `js` of `n` have been written into it, in that order (R96). -/
def loadLimbs (n : Operand) (js : List (Fin 128)) (x : Operand) : Operand :=
  js.foldl (fun y j => setLimb y j (limb n j)) x

/-- The limbs written are `n`'s, the others stay (R55). -/
theorem limb_loadLimbs (n : Operand) (js : List (Fin 128)) (x : Operand) (k : Fin 128) :
    limb (loadLimbs n js x) k = if k ∈ js then limb n k else limb x k := by
  induction js generalizing x with
  | nil => rfl
  | cons j js ih =>
    rw [loadLimbs, List.foldl_cons, ← loadLimbs, ih]
    by_cases hj : k = j
    · subst hj; simp
    · simp [hj, limb_setLimb_ne x _ hj]

/-- All 128 limbs of `n` written make `n`, whatever was there. -/
theorem loadLimbs_finRange (n x : Operand) : loadLimbs n (List.finRange 128) x = n :=
  operand_ext fun k => by rw [limb_loadLimbs, if_pos (List.mem_finRange k)]

/-- A limb write to the idle engine (R55). -/
theorem step_limb_idle {s : State} {i : Reg} {j : Fin 128} {v : Word} {rest : List Event}
    (hb : s.engine.status.busy = false) (hs : s.schedule = .write (limbOffset i j) .word v :: rest) :
    step s = .next { s with
      schedule := rest
      response := .okay
      engine := s.engine.setReg i (setLimb (s.engine.reg i) j v) } :=
  (step_limb hs).trans (congrArg _ (writeLimb_idle hb))

/-- A nonempty series of limb writes to one register of an idle engine writes those limbs and nothing else. -/
theorem run_limb_writes {i : Reg} {n : Operand} (j : Fin 128) (js : List (Fin 128)) {s : State} {rest : List Event}
    (hb : s.engine.status.busy = false)
    (hs : s.schedule = (j :: js).map (fun j => w32 (limbOffset i j) (limb n j)) ++ rest) :
    Host.Core.run core (js.length + 1) s = .next { s with
      schedule := rest
      response := .okay
      engine := s.engine.setReg i (loadLimbs n (j :: js) (s.engine.reg i)) } := by
  induction js generalizing j s with
  | nil => exact run_succ (step_limb_idle hb hs)
  | cons j' js ih =>
    have hrun := ih j' (s := { s with
      schedule := _, response := .okay, engine := s.engine.setReg i (setLimb (s.engine.reg i) j (limb n j)) }) hb rfl
    rw [setReg_setReg, reg_setReg_same] at hrun
    exact (run_succ (step_limb_idle hb hs)).trans hrun

/-- One more limb at the end is the most significant (R54, R96). -/
theorem valueOfLimbs_concat (ws : List Word) (w : Word) :
    valueOfLimbs (ws ++ [w]) = valueOfLimbs ws + 2 ^ (32 * ws.length) * w.toNat := by
  induction ws with
  | nil => simp [valueOfLimbs]
  | cons w' ws ih =>
    rw [List.cons_append, valueOfLimbs, valueOfLimbs, ih, List.length_cons, Nat.mul_succ, Nat.pow_add]
    ring

/-- The first `k` limbs of a value assemble to the value modulo 2^(32k) (R54, R96). -/
theorem valueOfLimbs_range (n : Operand) (k : Nat) :
    valueOfLimbs ((List.range k).map fun j => n.extractLsb' (32 * j) 32) = n.toNat % 2 ^ (32 * k) := by
  induction k with
  | zero => rw [Nat.mul_zero, Nat.pow_zero, Nat.mod_one]; rfl
  | succ k ih =>
    rw [List.range_succ, List.map_append, List.map_singleton, valueOfLimbs_concat, ih, List.length_map,
      List.length_range, BitVec.extractLsb'_toNat, Nat.shiftRight_eq_div_pow, Nat.mul_succ, Nat.pow_add, Nat.mod_mul]

/-- Settles O11: WRX is `run_limb_writes` over all limbs; read back, they are the value modulo 2^4096. -/
theorem operandLoadAndReadBack : Obligations.OperandLoadAndReadBack := by
  refine ⟨fun i n s rest hb hs => ?_, fun n => ?_⟩
  · obtain ⟨j, js, hjs⟩ : ∃ j js, List.finRange 128 = j :: js := ⟨0, _, List.finRange_succ⟩
    have hlen : js.length + 1 = 128 := by rw [← List.length_cons, ← hjs, List.length_finRange]
    rw [wrx, hjs] at hs
    have hrun := run_limb_writes j js hb hs
    rwa [hlen, ← hjs, loadLimbs_finRange] at hrun
  · calc valueOfLimbs ((List.finRange 128).map fun j => n.extractLsb' (32 * j.val) 32)
      _ = valueOfLimbs ((List.range 128).map fun j => n.extractLsb' (32 * j) 32) := by
        rw [← List.map_coe_finRange_eq_range, List.map_map]; rfl
      _ = n.toNat % 2 ^ 4096 := by rw [valueOfLimbs_range]
      _ = n.toNat := by rw [n.toNat_mod_cancel]

end Sys2Proof.Machine
end

section
/-! PROOFS. The statements of the family 40_command_lifecycle.md: what a CMD write does in each of its cases, the values a
completion writes, and a command's life from its CMD write to its end. -/

namespace Sys2Proof.Machine

/-! ### The CMD write -/

/-- The first error that applies to the word `v` written to an idle engine, or none (40_command_lifecycle.md R101, R104). -/
def submissionError (e : Engine) (v : Word) : Option ErrCode :=
  match decode v with
  | none => some .illegalCmd
  | some i => checkOf i (snapshot i e)

theorem submissionError_illegal {e : Engine} {v : Word} (hd : decode v = none) :
    submissionError e v = some .illegalCmd := by
  simp [submissionError, hd]

theorem submissionError_legal {e : Engine} {v : Word} {i : Instr} (hd : decode v = some i) :
    submissionError e v = checkOf i (snapshot i e) := by
  simp [submissionError, hd]

/-- Only a legal word has no error. -/
theorem decode_of_submissionError_none {e : Engine} {v : Word} (h : submissionError e v = none) :
    ∃ i, decode v = some i ∧ checkOf i (snapshot i e) = none := by
  cases hd : decode v with
  | none => simp [submissionError_illegal hd] at h
  | some i => exact ⟨i, rfl, (submissionError_legal hd).symm.trans h⟩

/-- An immediate error has one of the codes of 60_exceptions.md R211, never 0. -/
theorem submissionError_ne_none {e : Engine} {v : Word} {code : ErrCode} (h : submissionError e v = some code) :
    code ≠ .none := by
  cases hd : decode v with
  | none =>
    obtain rfl := Option.some.inj ((submissionError_illegal hd).symm.trans h)
    decide
  | some i => rcases checkOf_code ((submissionError_legal hd).symm.trans h) with rfl | rfl <;> decide

/-- A CMD write with an error ends at once in it, nothing but LASTCMD and the outcome changing (R101, R104). -/
theorem step_cmd_error {s : State} {v : Word} {rest : List Event} {code : ErrCode} (hb : s.engine.status.busy = false)
    (hs : s.schedule = .write 0x010 .word v :: rest) (he : submissionError s.engine v = some code) :
    step s = .next { s with
      schedule := rest
      response := .okay
      engine := { s.engine with
        lastCmd := v, status := ⟨false, true, true, false, false, s.engine.status.ovr, code⟩ } } := by
  cases hd : decode v with
  | none =>
    obtain rfl := Option.some.inj ((submissionError_illegal hd).symm.trans he)
    exact step_cmd_illegal hb hs hd
  | some i =>
    rw [submissionError_legal hd] at he
    exact (step_cmd_legal hb hs hd).trans (exec_idle_error hb he)

/-- A CMD write without an error is accepted, with the snapshot of its sources (R101, R103). -/
theorem step_cmd_accept {s : State} {v : Word} {i : Instr} {rest : List Event} (hb : s.engine.status.busy = false)
    (hs : s.schedule = .write 0x010 .word v :: rest) (hd : decode v = some i)
    (hc : checkOf i (snapshot i s.engine) = none) :
    step s = .next { s with
      schedule := rest
      response := .okay
      engine := { s.engine with
        lastCmd := v
        cur := ⟨i, snapshot i s.engine⟩
        status := ⟨true, false, false, false, false, s.engine.status.ovr, .none⟩ } } := by
  exact (step_cmd_legal hb hs hd).trans (exec_idle_accept hb hc)

/-- Settles O19: the write is `setOvr`, which `irq` does not read. -/
theorem cmdWriteWhileBusyOnlySetsOvr : Obligations.CmdWriteWhileBusyOnlySetsOvr := by
  intro s v rest hb hs
  exact ⟨_, step_cmd_busy hb hs, rfl, rfl⟩

/-- The completion step is `exec` of the latched command (40_command_lifecycle.md R106). -/
theorem engineStep_eq_exec {s : State} (hb : s.engine.status.busy = true) : engineStep s = exec s.engine.cur.cmd s :=
  if_pos hb

/-- Settles O20: a legal CMD write while idle, and the engine's step at a completion point or with no input left. That
`exec` has these two phases is log 9; that a BUSY engine completes when no input is left is log 2. -/
theorem stepRunsTheDecodedCommand : Obligations.StepRunsTheDecodedCommand := by
  refine ⟨fun s v i rest hb hs hd => step_cmd_legal hb hs hd, fun s rest hb hs => ?_, fun s hb hs => ?_⟩
  · exact (step_complete hs).trans (engineStep_eq_exec hb)
  · exact (step_nil hs).trans (engineStep_eq_exec hb)

/-! ### The checks, on the operands' values -/

/-- A word is zero exactly if its value is. -/
theorem eq_zero_iff_toNat {w : Nat} {x : BitVec w} : x = 0 ↔ x.toNat = 0 := by
  rw [BitVec.toNat_eq]
  simp

theorem modulusCheck_eq (snap : Snapshot) : modulusCheck snap = if snap.m.toNat = 0 then some .modZero else none := by
  simp only [modulusCheck, eq_zero_iff_toNat]

theorem montmulCheck_eq (snap : Snapshot) :
    montmulCheck snap =
      if snap.m.toNat = 0 then some .modZero
      else if snap.m.toNat % 2 = 0 ∨ snap.m.toNat ≤ snap.a.toNat ∨ snap.m.toNat ≤ snap.b.toNat then some .badArg
      else none := by
  simp only [montmulCheck, eq_zero_iff_toNat, BitVec.le_def]

/-- A command accepted by `modulusCheck` has a nonzero modulus (40_command_lifecycle.md R104). -/
theorem modulus_pos_of_modulusCheck {snap : Snapshot} (h : modulusCheck snap = none) : 0 < snap.m.toNat := by
  by_contra h0
  simp [modulusCheck_eq, show snap.m.toNat = 0 by omega] at h

/-- A command accepted by `montmulCheck` has a nonzero modulus (42_modexp.md R160). -/
theorem modulus_pos_of_montmulCheck {snap : Snapshot} (h : montmulCheck snap = none) : 0 < snap.m.toNat := by
  by_contra h0
  simp [montmulCheck_eq, show snap.m.toNat = 0 by omega] at h

/-- Settles O21: the table of R104 is `submissionError`, which says which of the two exact steps is taken. -/
theorem submissionChecksThenAccepts : Obligations.SubmissionChecksThenAccepts := by
  intro s v rest hs
  refine ⟨fun hb => step_cmd_busy hb hs, fun hb error herror => ?_⟩
  have htable : error = submissionError s.engine v := by
    cases hd : decode v with
    | none => rw [submissionError_illegal hd, herror, hd]
    | some i =>
      rw [submissionError_legal hd, herror, hd]
      cases i with
      | nop | gcd | mrround | isprime => rfl
      | modinv | modexp | modmul | modred => rw [checkOf, modulusCheck_eq]; rfl
      | montmul => rw [checkOf, montmulCheck_eq]; rfl
  subst htable
  refine ⟨fun code => step_cmd_error hb hs, fun i hd he => ?_⟩
  exact step_cmd_accept hb hs hd ((submissionError_legal hd).symm.trans he)

/-- Settles O22: neither exact step, nor the error that selects it, reads the old outcome or word. -/
theorem cmdWriteForgetsTheOldOutcome : Obligations.CmdWriteForgetsTheOldOutcome := by
  intro s v rest hb hs
  cases he : submissionError s.engine v with
  | some code =>
    have hstep := step_cmd_error hb hs he
    refine ⟨fun st w hbst hovr => ?_, _, hstep, .inr ⟨code, submissionError_ne_none he, rfl⟩⟩
    rw [hstep, ← hovr]
    exact step_cmd_error (s := { s with engine := { s.engine with status := st, lastCmd := w } }) hbst hs he
  | none =>
    obtain ⟨i, hd, hc⟩ := decode_of_submissionError_none he
    have hstep := step_cmd_accept hb hs hd hc
    refine ⟨fun st w hbst hovr => ?_, _, hstep, .inl ⟨rfl, rfl⟩⟩
    rw [hstep, ← hovr]
    exact step_cmd_accept (s := { s with engine := { s.engine with status := st, lastCmd := w } }) hbst hs hd hc

/-! ### The values of the commands -/

/-- What does not exceed a register's value fits the register (40_command_lifecycle.md R106). -/
theorem lt_two_pow_of_le_toNat {w x : Nat} {y : BitVec w} (h : x ≤ y.toNat) : x < 2 ^ w := h.trans_lt y.isLt

/-- Narrowing such a value loses nothing. -/
theorem toNat_ofNat_of_le_toNat {w x : Nat} {y : BitVec w} (h : x ≤ y.toNat) : (BitVec.ofNat w x).toNat = x := by
  rw [BitVec.toNat_ofNat, Nat.mod_eq_of_lt (lt_two_pow_of_le_toNat h)]

/-- GCD's loop stays below every bound of its operands (41_gcd_inverse.md R131). -/
theorem gcdLoop_lt {n : Nat} (fuel : Nat) {a b : Nat} (ha : a < n) (hb : b < n) : gcdLoop fuel a b < n := by
  induction fuel generalizing a b with
  | zero => exact ha
  | succ fuel ih =>
    rw [gcdLoop]
    split
    · exact ha
    · exact ih hb ((Nat.mod_le a b).trans_lt ha)

/-- GCD's value fits its operands' width. -/
theorem gcdValue_lt {w : Nat} (a b : BitVec w) : gcdValue a.toNat b.toNat < 2 ^ w := gcdLoop_lt _ a.isLt b.isLt

/-- An inverse is a residue (41_gcd_inverse.md R136). -/
theorem inverse_lt {a m x : Nat} (hm : 0 < m) (h : inverse a m = some x) : x < m := by
  unfold inverse at h
  split at h
  · cases h
  · obtain rfl := Option.some.inj h
    have := Int.emod_lt_of_pos (euclid a m).2 (Int.natCast_pos.mpr hm)
    have := Int.emod_nonneg (euclid a m).2 (Int.natCast_ne_zero.mpr hm.ne')
    omega

/-- Reducing the factor and the base first does not change a product with a power modulo `m`. -/
theorem mod_mul_pow_mod (r p e m : Nat) : r % m * (p % m) ^ e % m = r * p ^ e % m :=
  (Nat.mod_modEq r m).mul ((Nat.mod_modEq p m).pow e)

/-- Square and multiply, with any fuel that covers the exponent's bits (42_modexp.md R151, R152): each round keeps
`result · p ^ e` modulo `m`. -/
theorem modexpLoop_eq {m fuel result p e : Nat} (he : e < 2 ^ fuel) (hr : result < m) :
    modexpLoop m fuel result p e = result * p ^ e % m := by
  induction fuel generalizing result p e with
  | zero =>
    obtain rfl : e = 0 := by simpa using he
    simp [modexpLoop, Nat.mod_eq_of_lt hr]
  | succ fuel ih =>
    rw [modexpLoop]
    split
    · next h0 => simp [h0, Nat.mod_eq_of_lt hr]
    · have hhalf : e / 2 < 2 ^ fuel := by rw [Nat.pow_succ] at he; omega
      have hsplit : p ^ e = p ^ (e % 2) * (p * p) ^ (e / 2) := by
        rw [← pow_two, ← pow_mul, ← pow_add, Nat.mod_add_div]
      rcases Nat.mod_two_eq_zero_or_one e with h2 | h2
      · rw [if_neg (by omega), ih hhalf hr, hsplit, h2, pow_zero, one_mul, ← mod_mul_pow_mod result (p * p),
          Nat.mod_eq_of_lt hr]
      · rw [if_pos h2, ih hhalf (Nat.mod_lt _ (by omega)), hsplit, h2, pow_one, ← mul_assoc, mod_mul_pow_mod]

/-- MODEXP's value is the power's residue, for every exponent a register holds (42_modexp.md R152). -/
theorem modexpValue_eq {base e m : Nat} (he : e < 2 ^ 4096) (hm : 0 < m) : modexpValue base e m = base ^ e % m := by
  rw [modexpValue, modexpLoop_eq he (Nat.mod_lt _ hm), mod_mul_pow_mod, one_mul]

/-- A verdict is written as 0 or 1 (43_primality.md R183). -/
theorem verdictResult_out_lt {drawn v w : Nat} {verdict : Verdict} (h : (verdictResult drawn verdict).out = some v)
    (hw : w ≠ 0) : v < 2 ^ w := by
  have hv : v ≤ 1 := by cases verdict <;> cases h <;> decide
  exact hv.trans_lt (Nat.one_lt_two_pow hw)

/-- Settles O33: GCD stays below its operands' bound, a modular command below its modulus, a verdict is 0 or 1. -/
theorem resultsFitTheRegister : Obligations.ResultsFitTheRegister := by
  intro i snap draw v hc hv
  cases i with
  | nop => cases hv
  | gcd =>
    obtain rfl := Option.some.inj hv
    exact gcdValue_lt snap.a snap.b
  | modinv =>
    have hm := modulus_pos_of_modulusCheck hc
    simp only [resultOf, modinvResult] at hv
    cases hinv : inverse snap.a.toNat snap.m.toNat with
    | none =>
      rw [hinv] at hv
      obtain rfl := Option.some.inj hv
      exact lt_two_pow_of_le_toNat hm.le
    | some x =>
      rw [hinv] at hv
      obtain rfl := Option.some.inj hv
      exact lt_two_pow_of_le_toNat (inverse_lt hm hinv).le
  | modexp =>
    have hm := modulus_pos_of_modulusCheck hc
    obtain rfl := Option.some.inj hv
    rw [modexpValue_eq (lt_two_pow_of_le_toNat le_rfl) hm]
    exact lt_two_pow_of_le_toNat (Nat.mod_lt _ hm).le
  | modmul | modred =>
    obtain rfl := Option.some.inj hv
    exact lt_two_pow_of_le_toNat (Nat.mod_lt _ (modulus_pos_of_modulusCheck hc)).le
  | montmul =>
    obtain rfl := Option.some.inj hv
    exact lt_two_pow_of_le_toNat (Nat.mod_lt _ (modulus_pos_of_montmulCheck hc)).le
  | mrround | isprime => exact verdictResult_out_lt hv (by decide)

/-! ### The completion -/

/-- Settles O24: NOP's completion has no value, no verdict and no draw. -/
theorem nopCompletes : Obligations.NopCompletes := by
  intro s snap hb hcur
  rw [exec_busy hb]
  rfl

/-- The register file after a completion depends on the register file before it only. -/
theorem writeOut_x_congr {e e' : Engine} (h : e'.x = e.x) (rd : Reg) (o : Option Nat) :
    (e'.writeOut rd o).x = (e.writeOut rd o).x := by
  cases o with
  | none => exact h
  | some v => simp [h]

/-- At a completion point, or with no input left, a running command completes (40_command_lifecycle.md R106, R107). -/
theorem step_completes {s : State} (hb : s.engine.status.busy = true)
    (hs : s.schedule = [] ∨ ∃ rest, s.schedule = .complete :: rest) :
    step s = .next (complete s.engine.cur.cmd.fields.rd (resultOf s.engine.cur.cmd s.engine.cur.snap s.drawsAhead)
      { s with schedule := s.schedule.tail }) := by
  rcases hs with hs | ⟨rest, hs⟩
  · rw [step_nil hs, engineStep_busy hb, hs, List.tail_nil, ← hs]
  · rw [step_complete hs, hs]
    exact engineStep_busy hb

/-- A completion succeeds, if no error stood (40_command_lifecycle.md R106, R112). -/
theorem complete_succeeded (rd : Reg) (c : Completion) {s : State} (he : s.engine.status.err = false) :
    Succeeded (complete rd c s) :=
  ⟨⟨rfl, rfl⟩, by simp [he]⟩

/-! ### From the CMD write to the end -/

/-- Settles O42: the accepted state holds the snapshot the completion reads, and the registers it writes to. -/
theorem submitThenCompleteIsTheCommand : Obligations.SubmitThenCompleteIsTheCommand := by
  intro i s rest hw hb hc hs
  have hd : decode (encode i) = some i := decode_eq_some_iff.mpr ⟨hw, rfl⟩
  refine ⟨_, run_two (step_cmd_accept hb hs hd hc) (step_completes rfl (.inr ⟨rest, rfl⟩)), ?_⟩
  refine ⟨complete_succeeded _ _ rfl, rfl, ?_, rfl, rfl, ?_, ?_, ?_⟩
  · exact writeOut_x_congr (by rfl) _ _
  all_goals simp

/-- Settles O43: O42 for MODEXP, whose value is the power's residue and fits X[RD]. -/
theorem modexpWithAnyAliasing : Obligations.ModexpWithAnyAliasing := by
  intro s rd ra rb rm rest hb hm hs
  have hpos : 0 < (s.engine.reg rm).toNat := Nat.pos_of_ne_zero (mt eq_zero_iff_toNat.mpr hm)
  have hc : checkOf (.modexp rd ra rb rm) (snapshot (.modexp rd ra rb rm) s.engine) = none :=
    if_neg hm
  obtain ⟨t, hrun, hsucc, -, hx, -⟩ := submitThenCompleteIsTheCommand _ s rest rfl hb hc hs
  have hreg : ∀ r, t.engine.reg r = (s.engine.setReg rd (BitVec.ofNat 4096
      (modexpValue (s.engine.reg ra).toNat (s.engine.reg rb).toNat (s.engine.reg rm).toNat))).reg r :=
    fun r => congrArg (fun x : Vector Operand 8 => x[r.val]) hx
  refine ⟨t, hrun, hsucc, ?_, fun r hr => ?_⟩
  · rw [hreg, reg_setReg_same, modexpValue_eq (lt_two_pow_of_le_toNat le_rfl) hpos]
    exact toNat_ofNat_of_le_toNat (Nat.mod_lt _ hpos).le
  · rw [hreg, reg_setReg_ne _ _ hr]

/-- A running command completes after any accesses short of ABORT and SRST, with its value on the registers and the
snapshot it had before them (40_command_lifecycle.md R103, R106, R107). -/
theorem run_completes {evs last : List Event} {s : State} (hb : s.engine.status.busy = true)
    (he : s.engine.status.err = false) (hevs : evs.all Event.leavesRunning = true) (hs : s.schedule = evs ++ last)
    (hlast : last = [] ∨ ∃ rest, last = .complete :: rest) :
    ∃ t c d, Host.Core.run core (evs.length + 1) s = .next t ∧ Succeeded t ∧ t.schedule = last.tail ∧
      c = resultOf s.engine.cur.cmd s.engine.cur.snap d ∧
      t.engine.x = (s.engine.writeOut s.engine.cur.cmd.fields.rd c.out).x ∧
      t.engine.status.noinv = c.noinv ∧ t.engine.status.prime = c.prime := by
  obtain ⟨u, hrun, rfl, hu⟩ := run_running hb hevs hs
  have hstep := step_completes hu.busy hlast
  rw [hu.cur] at hstep
  exact ⟨_, _, _, run_last hrun hstep, complete_succeeded _ _ (hu.err he), rfl, rfl, writeOut_x_congr hu.x _ _, rfl, rfl⟩

/-- Settles O45: `run_completes` with no input left; only ISPRIME's value depends on the draws. -/
theorem runningCommandFinishes : Obligations.RunningCommandFinishes := by
  intro s hi hb hevs
  obtain ⟨⟨hbusy, -⟩, -⟩ := hi
  obtain ⟨-, herr, -⟩ := hbusy hb
  obtain ⟨t, c, d, hrun, hsucc, hnil, rfl, hx, hn, hp⟩ :=
    run_completes hb herr hevs (List.append_nil _).symm (.inl rfl)
  refine ⟨t, hrun, hsucc, ⟨by simp [hnil], hsucc.1.1⟩, hnil, fun hne u hu => ?_⟩
  obtain rfl := Host.Outcome.next.inj ((engineStep_busy hb).symm.trans hu)
  rw [resultOf_draw _ hne _ d s.drawsAhead] at hx hn hp
  exact ⟨hx, hn, hp⟩

/-- After any number of accesses short of ABORT and SRST a running command is not finished (40_command_lifecycle.md R112). -/
theorem not_finished_of_run_running {evs rest : List Event} {s u : State} {k : Nat} (hb : s.engine.status.busy = true)
    (hevs : evs.all Event.leavesRunning = true) (hs : s.schedule = evs ++ rest) (hk : k ≤ evs.length)
    (hu : Host.Core.run core k s = .next u) : ¬ Finished u := by
  have hpre : (evs.take k).all Event.leavesRunning = true :=
    List.all_eq_true.mpr fun ev hev => List.all_eq_true.mp hevs ev (List.mem_of_mem_take hev)
  have hsplit : s.schedule = evs.take k ++ (evs.drop k ++ rest) := by
    rw [← List.append_assoc, List.take_append_drop, hs]
  obtain ⟨w, hrun, -, hw⟩ := run_running hb hpre hsplit
  rw [List.length_take_of_le hk] at hrun
  obtain rfl := Host.Outcome.next.inj (hrun.symm.trans hu)
  exact fun hfin => Bool.false_ne_true (hfin.1.symm.trans hw.busy)

/-- Settles O46: after the accepted write every state is running until the completion; an error is there after the write. -/
theorem commandFinishesFirstAtItsEnd : Obligations.CommandFinishesFirstAtItsEnd := by
  refine ⟨fun s v i evs rest hb hd hc hevs hs => ?_, fun s v rest hb herr hs => ?_⟩
  · obtain ⟨a, hacc, hsa, hba, hea⟩ : ∃ a, step s = .next a ∧ a.schedule = evs ++ .complete :: rest ∧
        a.engine.status.busy = true ∧ a.engine.status.err = false :=
      ⟨_, step_cmd_accept hb hs hd hc, rfl, rfl, rfl⟩
    obtain ⟨t, -, -, hrun, hsucc, hst, -⟩ := run_completes hba hea hevs hsa (.inr ⟨rest, rfl⟩)
    refine ⟨t, ⟨by omega, (run_succ hacc).trans hrun, hsucc.1, fun k w hk hlt hw => ?_⟩, hsucc, hst⟩
    obtain ⟨k, rfl⟩ := Nat.exists_eq_add_of_le' hk
    rw [run_succ hacc] at hw
    exact not_finished_of_run_running hba hevs hsa (by omega) hw
  · obtain ⟨code, he⟩ : ∃ code, submissionError s.engine v = some code := by
      rcases herr with hd | ⟨i, code, hd, hc⟩
      · exact ⟨_, submissionError_illegal hd⟩
      · exact ⟨code, (submissionError_legal hd).trans hc⟩
    have hstep := step_cmd_error hb hs he
    refine ⟨_, ⟨le_rfl, run_succ hstep, ⟨rfl, rfl⟩, fun k w hk hlt => by omega⟩, ?_, rfl⟩
    simp

/-! ### The end of a program, and the abort -/

/-- A finished program's next step changes no engine but by a reset (40_command_lifecycle.md R112; 10_state.md R20). -/
theorem step_finished {s : State} (h : ProgramFinished s) :
    ∃ t, step s = .next t ∧ ProgramFinished t ∧ (t.engine = s.engine ∨ ∃ rest, s.schedule = .reset :: rest) := by
  obtain ⟨hsched, hb⟩ := h
  cases hs : s.schedule with
  | nil => exact ⟨s, (step_nil hs).trans (engineStep_idle hb), ⟨hsched, hb⟩, .inl rfl⟩
  | cons ev rest =>
    rw [hs, List.any_cons, Bool.or_eq_false_iff] at hsched
    obtain ⟨hev, hrest⟩ := hsched
    rcases hostStep_eq_false.mp hev with rfl | rfl
    · exact ⟨_, (step_complete hs).trans (engineStep_idle hb), ⟨hrest, hb⟩, .inl rfl⟩
    · exact ⟨_, step_reset hs, ⟨hrest, rfl⟩, .inr ⟨rest, rfl⟩⟩

/-- Settles O47: no host step is left exactly if only completion points and resets are, which an idle engine outlives. -/
theorem finishedProgramStaysFinished : Obligations.FinishedProgramStaysFinished := by
  refine ⟨fun s => ?_, fun s => step_finished, fun s hb => ?_⟩
  · simp only [ProgramFinished, List.any_eq_false, Bool.not_eq_true, hostStep_eq_false]
  · simp [hb]

/-- Settles O48: `writeCtrl` with ABORT, by BUSY; NOINV and PRIME are 0 while BUSY by the invariant. -/
theorem abortEndsTheCommand : Obligations.AbortEndsTheCommand := by
  intro s v rest hi h2 h3 hs
  have hstep := step_ctrl hs
  rw [writeCtrl_plain h3, h2, Bool.true_and] at hstep
  obtain ⟨⟨hbusy, -⟩, -⟩ := hi
  cases hb : s.engine.status.busy with
  | false =>
    rw [if_neg (by simp [hb])] at hstep
    exact ⟨_, hstep, rfl, rfl, rfl, by simp, fun _ => rfl⟩
  | true =>
    obtain ⟨-, -, hn, hp⟩ := hbusy hb
    rw [if_pos (by exact hb)] at hstep
    exact ⟨_, hstep, rfl, rfl, rfl, fun _ => by simp [Status.failed, hn, hp], by simp⟩

end Sys2Proof.Machine
end

section
/-! PROOFS. The statements of the family 41_gcd_inverse.md: Euclid's two loops compute the greatest common divisor and the
inverse, and GCD and MODINV complete with them. -/

namespace Sys2Proof.Machine

/-! ### Euclid's loop -/

/-- The loop ends in the greatest common divisor, with any fuel that covers the second operand (41_gcd_inverse.md R131). -/
theorem gcdLoop_eq_gcd {fuel a b : Nat} (h : b ≤ fuel) : gcdLoop fuel a b = Nat.gcd a b := by
  induction fuel generalizing a b with
  | zero =>
    obtain rfl := Nat.le_zero.mp h
    exact a.gcd_zero_right.symm
  | succ fuel ih =>
    rw [gcdLoop]
    split
    · next h0 => rw [h0, Nat.gcd_zero_right]
    · next h0 =>
      have hmod : a % b < b := Nat.mod_lt a (Nat.pos_of_ne_zero h0)
      rw [ih (by omega), Nat.gcd_comm, ← Nat.gcd_rec, Nat.gcd_comm]

/-- GCD's value, narrowed to its operands' width, is their greatest common divisor (41_gcd_inverse.md R131). -/
theorem toNat_ofNat_gcdValue {w : Nat} (a b : BitVec w) :
    (BitVec.ofNat w (gcdValue a.toNat b.toNat)).toNat = Nat.gcd a.toNat b.toNat := by
  rw [BitVec.toNat_ofNat, Nat.mod_eq_of_lt (gcdValue_lt a b), gcdValue, gcdLoop_eq_gcd le_rfl]

/-! ### The extended loop -/

/-- The first components run through GCD's loop, whatever the coefficients are (41_gcd_inverse.md R136). -/
theorem inverseLoop_fst_eq_gcdLoop (fuel r r' : Nat) (t t' : Int) :
    (inverseLoop fuel r r' t t').1 = gcdLoop fuel r r' := by
  induction fuel generalizing r r' t t' with
  | zero => rfl
  | succ fuel ih =>
    rw [inverseLoop, gcdLoop]
    split
    · rfl
    · rw [ih, Nat.mod_def, Nat.mul_comm]

/-- The final `r` is the greatest common divisor (41_gcd_inverse.md R137). -/
theorem euclid_fst (a m : Nat) : (euclid a m).1 = Nat.gcd a m := by
  rw [euclid, inverseLoop_fst_eq_gcdLoop, gcdLoop_eq_gcd a.le_succ, Nat.gcd_comm]

/-- Bézout's property of the extended loop: each round keeps both remainders congruent to `a` times their coefficients
(41_gcd_inverse.md R137). -/
theorem inverseLoop_modEq {a m : Int} (fuel : Nat) {r r' : Nat} {t t' : Int} (h : r ≡ a * t [ZMOD m])
    (h' : r' ≡ a * t' [ZMOD m]) :
    (inverseLoop fuel r r' t t').1 ≡ a * (inverseLoop fuel r r' t t').2 [ZMOD m] := by
  induction fuel generalizing r r' t t' with
  | zero => exact h
  | succ fuel ih =>
    rw [inverseLoop]
    split
    · exact h
    · refine ih h' ?_
      calc ((r - r / r' * r' : Nat) : Int)
        _ = r - (r / r' : Nat) * r' := by rw [Nat.cast_sub (Nat.div_mul_le_self r r'), Nat.cast_mul]
        _ ≡ a * t - (r / r' : Nat) * (a * t') [ZMOD m] := h.sub (h'.mul_left _)
        _ = a * (t - (r / r' : Nat) * t') := by ring

/-- The final `t` is a coefficient of `a` for the greatest common divisor. -/
theorem gcd_modEq_mul_euclid_snd (a m : Nat) : (Nat.gcd a m : Int) ≡ a * (euclid a m).2 [ZMOD m] := by
  have hm : (m : Int) ≡ a * 0 [ZMOD m] := by simp [Int.ModEq]
  have ha : (a : Int) ≡ a * 1 [ZMOD m] := by rw [mul_one]
  rw [← euclid_fst]
  exact inverseLoop_modEq (a + 1) hm ha

/-! ### The inverse -/

/-- No inverse where the operands have a common divisor (41_gcd_inverse.md R136). -/
theorem inverse_of_one_lt_gcd {a m : Nat} (h : 1 < Nat.gcd a m) : inverse a m = none :=
  if_pos (by rwa [euclid_fst])

/-- Coprime operands have an inverse (41_gcd_inverse.md R137). -/
theorem inverse_of_coprime {a m : Nat} (hm : 0 < m) (h : Nat.Coprime a m) :
    ∃ x, inverse a m = some x ∧ x < m ∧ a * x ≡ 1 [MOD m] := by
  have hinv : inverse a m = some ((euclid a m).2 % m).toNat :=
    if_neg (by rw [euclid_fst, h.gcd_eq_one]; exact lt_irrefl 1)
  refine ⟨_, hinv, inverse_lt hm hinv, Int.natCast_modEq_iff.mp ?_⟩
  have hbezout := gcd_modEq_mul_euclid_snd a m
  rw [h.gcd_eq_one] at hbezout
  rw [Nat.cast_mul, Int.toNat_of_nonneg (Int.emod_nonneg _ (Int.natCast_ne_zero.mpr hm.ne'))]
  exact ((Int.mod_modEq _ _).mul_left _).trans hbezout.symm

/-- Coprime operands have no second inverse below the modulus. -/
theorem eq_of_mul_modEq_one {a m x y : Nat} (h : Nat.Coprime a m) (hx : x < m) (hy : y < m) (hax : a * x ≡ 1 [MOD m])
    (hay : a * y ≡ 1 [MOD m]) : x = y :=
  ((hax.trans hay.symm).cancel_left_of_coprime h.symm.gcd_eq_one).eq_of_lt_of_lt hx hy

/-- Over a nonzero modulus, a common divisor above 1 is all that stands against coprimality. -/
theorem coprime_of_not_one_lt_gcd {a m : Nat} (hm : 0 < m) (h : ¬ 1 < Nat.gcd a m) : Nat.Coprime a m := by
  have hpos : 0 < Nat.gcd a m := Nat.gcd_pos_of_pos_right a hm
  exact Nat.coprime_iff_gcd_eq_one.mpr (by omega)

/-! ### The completions -/

/-- The exact completion of a command that draws nothing and whose value is `v` (40_command_lifecycle.md R106). -/
theorem exec_completes_value {i : Instr} {s : State} {snap : Snapshot} {v : Nat} {noinv prime : Bool}
    (hb : s.engine.status.busy = true) (hcur : s.engine.cur = ⟨i, snap⟩)
    (hr : resultOf i snap s.drawsAhead = ⟨some v, noinv, prime, 0⟩) :
    exec i s = .next { s with
      engine := { s.engine with
        x := s.engine.x.set i.fields.rd.val (BitVec.ofNat 4096 v)
        status := { s.engine.status with busy := false, done := true, noinv := noinv, prime := prime } } } := by
  rw [exec_busy hb, hcur, hr]
  rfl

/-- Settles O25: the value written is `toNat_ofNat_gcdValue`. -/
theorem gcdCompletes : Obligations.GcdCompletes := by
  intro s rd ra rb snap hb hcur
  exact ⟨_, toNat_ofNat_gcdValue snap.a snap.b, exec_completes_value hb hcur rfl⟩

/-- Settles O26: a common divisor leaves no inverse; otherwise `inverse` is the one residue that meets the equation. -/
theorem modinvCompletes : Obligations.ModinvCompletes := by
  intro s rd ra rm snap hb hcur hm
  have hpos : 0 < snap.m.toNat := Nat.pos_of_ne_zero (mt eq_zero_iff_toNat.mpr hm)
  by_cases hgcd : 1 < Nat.gcd snap.a.toNat snap.m.toNat
  · refine ⟨0, exec_completes_value hb hcur ?_, fun _ => rfl, fun h => absurd hgcd h, euclid_fst _ _⟩
    rw [resultOf, modinvResult, inverse_of_one_lt_gcd hgcd, decide_eq_true hgcd]
  · have hco := coprime_of_not_one_lt_gcd hpos hgcd
    obtain ⟨x, hinv, hlt, hx⟩ := inverse_of_coprime hpos hco
    have hfits : (BitVec.ofNat 4096 x).toNat = x := toNat_ofNat_of_le_toNat hlt.le
    refine ⟨BitVec.ofNat 4096 x, exec_completes_value hb hcur ?_, fun h => absurd h hgcd, fun _ => ?_, euclid_fst _ _⟩
    · rw [resultOf, modinvResult, hinv, decide_eq_false hgcd]
      rfl
    · rw [hfits]
      exact ⟨hlt, hx, fun y hy hay => eq_of_mul_modEq_one hco hy hlt hay hx⟩

end Sys2Proof.Machine
end

section
/-! PROOFS. The statements of the family 42_modexp.md: the modular commands complete with the residues of their closed
forms, and MONTMUL's value is the Montgomery product. -/

namespace Sys2Proof.Machine

/-! ### The Montgomery product -/

/-- The radix for registers of 4096 bits (42_modexp.md R161). -/
theorem montRadix_eq : montRadix = 2 ^ 4096 := by rw [montRadix]

/-- The radix is a power of two, so it is coprime to every odd modulus (42_modexp.md R161). -/
theorem coprime_montRadix {m : Nat} (hm : m % 2 = 1) : Nat.Coprime montRadix m :=
  (Nat.coprime_two_left.mpr (Nat.odd_iff.mpr hm)).pow_left _

/-- MONTMUL's value is a residue (42_modexp.md R161). -/
theorem montValue_lt {m : Nat} (hm : m % 2 = 1) (a b : Nat) : montValue a b m < m := Nat.mod_lt _ (by omega)

/-- For an odd modulus, MONTMUL's value is the product with one fixed inverse of the radix (42_modexp.md R161). -/
theorem exists_montRadix_inverse {m : Nat} (hm : m % 2 = 1) :
    ∃ r, montRadix * r ≡ 1 [MOD m] ∧ ∀ a b, montValue a b m = a * b * r % m := by
  have hco : Nat.Coprime (montRadix % m) m := (Nat.mod_modEq montRadix m).gcd_eq.trans (coprime_montRadix hm)
  obtain ⟨r, hinv, -, hr⟩ := inverse_of_coprime (by omega) hco
  refine ⟨r, ((Nat.mod_modEq montRadix m).mul_right r).symm.trans hr, fun a b => ?_⟩
  rw [montValue, hinv, Option.getD_some]

/-- MONTMUL's value times the radix is the product modulo `m` (42_modexp.md R161). -/
theorem montValue_mul_montRadix {m : Nat} (hm : m % 2 = 1) (a b : Nat) :
    montValue a b m * montRadix ≡ a * b [MOD m] := by
  obtain ⟨r, hr, hval⟩ := exists_montRadix_inverse hm
  calc montValue a b m * montRadix
    _ = a * b * r % m * montRadix := by rw [hval]
    _ ≡ a * b * r * montRadix [MOD m] := (Nat.mod_modEq _ m).mul_right _
    _ = a * b * (montRadix * r) := by ring
    _ ≡ a * b * 1 [MOD m] := hr.mul_left _
    _ = a * b := mul_one _

/-- Whatever gives the product when multiplied by the radix is MONTMUL's value modulo `m` (42_modexp.md R161). -/
theorem montValue_eq_mod {a b c m : Nat} (hm : m % 2 = 1) (h : c * montRadix ≡ a * b [MOD m]) :
    montValue a b m = c % m := by
  have hc : montValue a b m ≡ c [MOD m] :=
    ((montValue_mul_montRadix hm a b).trans h.symm).cancel_right_of_coprime (coprime_montRadix hm).symm.gcd_eq_one
  rw [← hc, Nat.mod_eq_of_lt (montValue_lt hm a b)]

/-! ### Montgomery form -/

/-- MONTMUL with R² mod M converts into Montgomery form (42_modexp.md R162). -/
theorem montValue_montRadix_sq {m : Nat} (hm : m % 2 = 1) (a : Nat) :
    montValue a (montRadix * montRadix % m) m = a * montRadix % m :=
  montValue_eq_mod hm <| by
    rw [mul_assoc]
    exact (Nat.mod_modEq _ m).symm.mul_left a

/-- MONTMUL multiplies in Montgomery form (42_modexp.md R162). -/
theorem montValue_montForm {m : Nat} (hm : m % 2 = 1) (a b : Nat) :
    montValue (a * montRadix % m) (b * montRadix % m) m = a * b * montRadix % m :=
  montValue_eq_mod hm <| by
    rw [show a * b * montRadix * montRadix = a * montRadix * (b * montRadix) by ring]
    exact ((Nat.mod_modEq _ m).mul (Nat.mod_modEq _ m)).symm

/-- MONTMUL with 1 converts back (42_modexp.md R162). -/
theorem montValue_one {m : Nat} (hm : m % 2 = 1) (a : Nat) : montValue (a * montRadix % m) 1 m = a % m :=
  montValue_eq_mod hm <| by
    rw [mul_one]
    exact (Nat.mod_modEq _ m).symm

/-- Settles O41: the conversions and the product in Montgomery form, composed. -/
theorem montgomeryFormRoundTrip : Obligations.MontgomeryFormRoundTrip := by
  intro a b m hm ha _
  simp only [montValue_montRadix_sq hm, montValue_montForm hm, montValue_one hm, Nat.mod_eq_of_lt ha, and_self]

/-! ### The completions -/

/-- The exact completion of a command whose value is a residue modulo M, which X[RD] holds in full
(40_command_lifecycle.md R106). -/
theorem exec_completes_residue {i : Instr} {s : State} {snap : Snapshot} {n : Nat} (hb : s.engine.status.busy = true)
    (hcur : s.engine.cur = ⟨i, snap⟩) (hm : snap.m ≠ 0)
    (hr : resultOf i snap s.drawsAhead = .value (n % snap.m.toNat)) :
    ∃ v : Operand, v.toNat = n % snap.m.toNat ∧
      exec i s = .next { s with
        engine := { s.engine with
          x := s.engine.x.set i.fields.rd.val v
          status := { s.engine.status with busy := false, done := true, noinv := false, prime := false } } } :=
  have hpos : 0 < snap.m.toNat := Nat.pos_of_ne_zero (mt eq_zero_iff_toNat.mpr hm)
  ⟨_, toNat_ofNat_of_le_toNat (Nat.mod_lt n hpos).le, exec_completes_value hb hcur hr⟩

/-- Settles O27: square and multiply answers the power's residue (`modexpValue_eq`). -/
theorem modexpCompletes : Obligations.ModexpCompletes := by
  intro s rd ra rb rm snap hb hcur hm
  have hpos : 0 < snap.m.toNat := Nat.pos_of_ne_zero (mt eq_zero_iff_toNat.mpr hm)
  have hval := modexpValue_eq (base := snap.a.toNat) (lt_two_pow_of_le_toNat (le_refl snap.b.toNat)) hpos
  exact exec_completes_residue hb hcur hm (congrArg Completion.value hval)

/-- Settles O28: the value is a residue by its definition. -/
theorem modmulCompletes : Obligations.ModmulCompletes :=
  fun _ _ _ _ _ _ hb hcur hm => exec_completes_residue hb hcur hm rfl

/-- Settles O29: the value is a residue by its definition. -/
theorem modredCompletes : Obligations.ModredCompletes :=
  fun _ _ _ _ _ hb hcur hm => exec_completes_residue hb hcur hm rfl

/-- Settles O30: MONTMUL's value meets the equation (`montValue_mul_montRadix`), and alone (`montValue_eq_mod`). -/
theorem montmulCompletes : Obligations.MontmulCompletes := by
  intro s rd ra rb rm snap hb hcur hodd _ _
  rw [← montRadix_eq]
  have hm : snap.m ≠ 0 := fun h0 => by simp [eq_zero_iff_toNat.mp h0] at hodd
  obtain ⟨v, hv, hexec⟩ := exec_completes_residue hb hcur hm rfl
  rw [← montValue] at hv
  refine ⟨v, hexec, ?_, ?_, fun x hx hxeq => ?_⟩
  · rw [BitVec.lt_def, hv]
    exact montValue_lt hodd _ _
  · rw [hv]
    exact montValue_mul_montRadix hodd _ _
  · rw [hv, montValue_eq_mod hodd hxeq, Nat.mod_eq_of_lt hx]

end Sys2Proof.Machine
end

section
/-! PROOFS. The statements of the family 43_primality.md: the decomposition is exact, a Miller-Rabin round is the strong
probable prime test, which every prime passes, and MRROUND and ISPRIME complete with the verdicts of their rounds. -/

namespace Sys2Proof.Machine

/-! ### The decomposition -/

/-- Floor and ceiling of a quotient agree exactly if the divisor divides (43_primality.md R180). -/
theorem div_eq_ceilDiv_iff {x d : Nat} (hx : 0 < x) (hd : 0 < d) : x / d = ceilDiv x d ↔ d ∣ x := by
  obtain ⟨y, rfl⟩ := Nat.exists_eq_add_of_le' hx
  have hceil : ceilDiv (y + 1) d = y / d + 1 := by
    rw [ceilDiv, Nat.succ_add_sub_one, Nat.add_div_right y hd]
  rw [hceil, Nat.succ_div, Nat.add_left_cancel_iff]
  split <;> simp [*]

/-- The loop finds the power of two, with any fuel that covers the exponents left (43_primality.md R180). -/
theorem decomposeLoop_eq {e r fuel s : Nat} (hr : r % 2 = 1) (hs : s ≤ e) (he : e ≤ s + fuel) :
    decomposeLoop (2 ^ e * r) fuel s = e := by
  induction fuel generalizing s with
  | zero => exact Nat.le_antisymm hs he
  | succ fuel ih =>
    have hdvd : 2 ^ (s + 1) ∣ 2 ^ e * r ↔ s + 1 ≤ e := by
      have hco : Nat.Coprime (2 ^ (s + 1)) r := (Nat.coprime_two_left.mpr (Nat.odd_iff.mpr hr)).pow_left _
      rw [hco.dvd_mul_right, Nat.pow_dvd_pow_iff_le_right']
    have hpos : 0 < 2 ^ e * r := Nat.mul_pos (Nat.two_pow_pos e) (by omega)
    rw [decomposeLoop, if_congr (div_eq_ceilDiv_iff hpos (Nat.two_pow_pos _)) rfl rfl, if_congr hdvd rfl rfl]
    split
    · next hlt => exact ih hlt (by omega)
    · next hge => omega

/-- The decomposition is the one factorisation of `n - 1` into a power of two and an odd number (43_primality.md R180). -/
theorem decompose_eq {n e r : Nat} (h1 : 1 < n) (hn : n < 2 ^ 4096) (h : n - 1 = 2 ^ e * r) (hr : r % 2 = 1) :
    decompose n = (e, r) := by
  have he : e < 4096 := by
    have hle : 2 ^ e ≤ 2 ^ e * r := Nat.le_mul_of_pos_right _ (by omega)
    exact (Nat.pow_lt_pow_iff_right Nat.one_lt_two).mp (by omega)
  have hloop : decomposeLoop (n - 1) Config.nbits 0 = e := by
    rw [h]
    exact decomposeLoop_eq hr (Nat.zero_le e) (by rw [Nat.zero_add]; exact he.le)
  rw [decompose, hloop, h, Nat.mul_div_cancel_left r (Nat.two_pow_pos e)]

/-- Settles O35: `decompose_eq` at the factorisation every positive number has. -/
theorem decompositionIsExact : Obligations.DecompositionIsExact := by
  intro n h3 hn
  obtain ⟨e, r, hodd, h⟩ := Nat.exists_eq_two_pow_mul_odd (n := n - 1) (by omega)
  have hr : r % 2 = 1 := Nat.odd_iff.mp hodd
  have hdec : decompose n = (e, r) := decompose_eq (by omega) hn h hr
  refine ⟨by rwa [hdec], by rwa [hdec], fun heven => ?_⟩
  exact decompose_eq (by omega) hn (by rw [pow_zero, one_mul]) (by omega)

/-! ### One Miller-Rabin round -/

/-- There are two verdicts (43_primality.md R181). -/
theorem eq_composite_iff {v : Verdict} : v = .composite ↔ v ≠ .probablyPrime := by
  cases v <;> decide

/-- Squaring the base first (43_primality.md R181). -/
theorem sq_mod_pow_mod (n y j : Nat) : (y * y % n) ^ 2 ^ j % n = y ^ 2 ^ (j + 1) % n := by
  rw [← Nat.pow_mod, ← pow_two, ← pow_mul, ← pow_succ']

/-- The squarings say probably prime exactly if one of them reaches `n - 1`: the early stop at 1 loses none, since
squaring 1 gives 1 again (43_primality.md R181). -/
theorem squareLoop_eq_probablyPrime_iff {n k y : Nat} (hn : 3 < n) (hy : y < n) :
    squareLoop n k y = .probablyPrime ↔ ∃ j < k + 1, y ^ 2 ^ j % n = n - 1 := by
  induction k generalizing y with
  | zero => simp [squareLoop, Nat.mod_eq_of_lt hy]
  | succ k ih =>
    have hsplit : (∃ j < k + 1 + 1, y ^ 2 ^ j % n = n - 1) ↔
        y = n - 1 ∨ ∃ j < k + 1, (y * y % n) ^ 2 ^ j % n = n - 1 := by
      simp only [Nat.exists_lt_succ_left (n := k + 1), sq_mod_pow_mod, pow_zero, pow_one, Nat.mod_eq_of_lt hy]
    rw [hsplit, squareLoop]
    split
    · next hlast => simp [hlast]
    · next hlast =>
      split
      · next hone =>
        have h1 : 1 % n ≠ n - 1 := by rw [Nat.mod_eq_of_lt (by omega)]; omega
        simp [hlast, hone, h1]
      · rw [ih (Nat.mod_lt _ (by omega)), or_iff_right hlast]

/-- A round is the strong probable prime test (43_primality.md R181). -/
theorem mrRound_eq_probablyPrime_iff {n w e r : Nat} (h3 : 3 < n) (hn : n < 2 ^ 4096) (h : n - 1 = 2 ^ e * r)
    (hr : r % 2 = 1) :
    mrRound n w = .probablyPrime ↔
      w ^ r % n = 1 ∨ w ^ r % n = n - 1 ∨ ∃ j, 1 ≤ j ∧ j < e ∧ w ^ (2 ^ j * r) % n = n - 1 := by
  have hexp : r < 2 ^ 4096 := by
    have hle : r ≤ 2 ^ e * r := Nat.le_mul_of_pos_left r (Nat.two_pow_pos e)
    omega
  have hpow : ∀ j, (w ^ r % n) ^ 2 ^ j % n = w ^ (2 ^ j * r) % n := fun j => by
    rw [← Nat.pow_mod, ← pow_mul, Nat.mul_comm]
  have hloop : squareLoop n (e - 1) (w ^ r % n) = .probablyPrime ↔
      w ^ r % n = n - 1 ∨ ∃ j, 1 ≤ j ∧ j < e ∧ w ^ (2 ^ j * r) % n = n - 1 := by
    simp only [squareLoop_eq_probablyPrime_iff h3 (Nat.mod_lt _ (by omega)), hpow]
    constructor
    · rintro ⟨j | j, hj, hlast⟩
      · exact .inl (by simpa using hlast)
      · exact .inr ⟨j + 1, by omega, by omega, hlast⟩
    · rintro (hlast | ⟨j, h1, hj, hlast⟩)
      · exact ⟨0, by omega, by simpa using hlast⟩
      · exact ⟨j, by omega, hlast⟩
  simp only [mrRound, decompose_eq (by omega) hn h hr, modexpValue_eq hexp (Nat.zero_lt_of_lt h3)]
  split
  · next hstop => exact iff_of_true rfl (hstop.imp_right .inl)
  · next hgo => rw [hloop, or_iff_right fun h1 => hgo (.inl h1)]

/-! ### The Miller-Rabin theorem -/

/-- In a domain, whatever an iterated square brings to 1 is 1 itself or passes -1 on the way. -/
theorem eq_one_or_exists_pow_two_pow_eq_neg_one {R : Type} [CommRing R] [IsDomain R] {b : R} {e : Nat}
    (h : b ^ 2 ^ e = 1) : b = 1 ∨ ∃ j < e, b ^ 2 ^ j = -1 := by
  induction e with
  | zero => exact .inl (by simpa using h)
  | succ e ih =>
    rw [pow_succ, pow_mul, sq_eq_one_iff] at h
    rcases h with h | h
    · exact (ih h).imp_right fun ⟨j, hj, hneg⟩ => ⟨j, by omega, hneg⟩
    · exact .inr ⟨e, by omega, h⟩

/-- Residue `n - 1` is -1 in the integers modulo `n`. -/
theorem natCast_eq_neg_one_iff {n a : Nat} (hn : 0 < n) : (a : ZMod n) = -1 ↔ a % n = n - 1 := by
  have hneg : (-1 : ZMod n) = (n - 1 : Nat) := by simp [Nat.cast_sub hn]
  rw [hneg, ZMod.natCast_eq_natCast_iff', Nat.mod_eq_of_lt (Nat.sub_one_lt hn.ne')]

/-- Residue 1 is 1 in the integers modulo `n`. -/
theorem natCast_eq_one_iff {n a : Nat} (hn : 1 < n) : (a : ZMod n) = 1 ↔ a % n = 1 := by
  rw [← Nat.cast_one, ZMod.natCast_eq_natCast_iff', Nat.mod_eq_of_lt hn]

/-- Settles O36: by Fermat's little theorem `w ^ r` is an iterated square root of 1, and modulo a prime the only square
roots of 1 are 1 and -1. -/
theorem primesPassEveryRound : Obligations.PrimesPassEveryRound := by
  intro n w hp h3 hn h2 hw
  obtain ⟨e, r, hodd, h⟩ := Nat.exists_eq_two_pow_mul_odd (n := n - 1) (by omega)
  have := Fact.mk hp
  have hw0 : (w : ZMod n) ≠ 0 := fun h0 =>
    Nat.not_dvd_of_pos_of_lt (by omega) (by omega) ((ZMod.natCast_eq_zero_iff w n).mp h0)
  have hfermat : ((w : ZMod n) ^ r) ^ 2 ^ e = 1 := by
    rw [← pow_mul, Nat.mul_comm, ← h]
    exact ZMod.pow_card_sub_one_eq_one hw0
  rw [mrRound_eq_probablyPrime_iff h3 hn h (Nat.odd_iff.mp hodd)]
  rcases eq_one_or_exists_pow_two_pow_eq_neg_one hfermat with h1 | ⟨j, hj, hneg⟩
  · exact .inl ((natCast_eq_one_iff (by omega)).mp (by exact_mod_cast h1))
  · rw [← pow_mul, Nat.mul_comm, ← Nat.cast_pow, natCast_eq_neg_one_iff (by omega)] at hneg
    rcases Nat.eq_zero_or_pos j with rfl | hpos
    · exact .inr (.inl (by simpa using hneg))
    · exact .inr (.inr ⟨j, hpos, hj, hneg⟩)

/-! ### The rounds of ISPRIME -/

/-- A drawn witness is in the range (43_primality.md R186). -/
theorem witness_bounds {n : Nat} (hn : 3 < n) (raw : Nat) : 2 ≤ witness n raw ∧ witness n raw ≤ n - 2 := by
  have hlt : raw % (n - 3) < n - 3 := Nat.mod_lt _ (by omega)
  rw [witness]
  omega

/-- Every value of the range is drawn (43_primality.md R186). -/
theorem exists_witness_eq {n w : Nat} (hn : 3 < n) (h2 : 2 ≤ w) (hw : w ≤ n - 2) : ∃ raw, witness n raw = w :=
  ⟨w - 2, by rw [witness, Nat.mod_eq_of_lt (by omega)]; omega⟩

/-- The loop says probably prime exactly if every round left does (43_primality.md R188). -/
theorem primalityLoop_eq_probablyPrime_iff {n rounds k : Nat} {draw : Nat → Nat} :
    (primalityLoop n draw rounds k).1 = .probablyPrime ↔
      ∀ j < rounds, mrRound n (witness n (draw (k + j))) = .probablyPrime := by
  induction rounds generalizing k with
  | zero => simp [primalityLoop]
  | succ rounds ih =>
    rw [primalityLoop, Nat.forall_lt_succ_left, Nat.add_zero]
    cases mrRound n (witness n (draw k)) with
    | composite => simp
    | probablyPrime => simp [ih, Nat.add_comm, Nat.add_left_comm]

/-- The loop draws at most one witness a round (43_primality.md R188). -/
theorem primalityLoop_drawn_le (n : Nat) (draw : Nat → Nat) (rounds k : Nat) :
    (primalityLoop n draw rounds k).2 ≤ k + rounds := by
  induction rounds generalizing k with
  | zero => exact le_rfl
  | succ rounds ih =>
    rw [primalityLoop]
    split
    · exact Nat.add_le_add_left (Nat.le_add_left 1 rounds) k
    · exact (ih (k + 1)).trans (by omega)

/-- The whole test says probably prime of 2, of 3, and of what passes every round (43_primality.md R188). -/
theorem primality_eq_probablyPrime_iff {n rounds : Nat} {draw : Nat → Nat} :
    (primality n rounds draw).1 = .probablyPrime ↔
      n = 2 ∨ n = 3 ∨ (3 < n ∧ ∀ k < rounds, mrRound n (witness n (draw k)) = .probablyPrime) := by
  rw [primality]
  split
  · next h01 => exact iff_of_false (by decide) (by omega)
  · next h01 =>
    split
    · next h23 => exact iff_of_true rfl (by omega)
    · next h23 =>
      have h3 : 3 < n := by omega
      obtain ⟨h2, h3'⟩ := not_or.mp h23
      simp only [primalityLoop_eq_probablyPrime_iff, Nat.zero_add, h2, h3', h3, false_or, true_and]

/-- The whole test draws at most one witness a round (43_primality.md R188). -/
theorem primality_drawn_le (n rounds : Nat) (draw : Nat → Nat) : (primality n rounds draw).2 ≤ rounds := by
  rw [primality]
  split
  · exact Nat.zero_le _
  · split
    · exact Nat.zero_le _
    · exact (primalityLoop_drawn_le n draw rounds 0).trans (by omega)

/-- Settles O39: the raw draw of one value, repeated, gives that value's verdict in every round. -/
theorem liarsAdmitBothVerdicts : Obligations.LiarsAdmitBothVerdicts := by
  refine ⟨fun n w hn h2 hw => exists_witness_eq hn h2 hw, fun n raw hn => witness_bounds hn raw,
    fun n rounds hn hr => ⟨?_, ?_⟩⟩
  · rintro ⟨w, h2, hw, hliar⟩
    obtain ⟨raw, rfl⟩ := exists_witness_eq hn h2 hw
    exact ⟨fun _ => raw, primality_eq_probablyPrime_iff.mpr (.inr (.inr ⟨hn, fun _ _ => hliar⟩))⟩
  · rintro ⟨w, h2, hw, hcomp⟩
    obtain ⟨raw, rfl⟩ := exists_witness_eq hn h2 hw
    refine ⟨fun _ => raw, eq_composite_iff.mpr fun hpass => ?_⟩
    rcases primality_eq_probablyPrime_iff.mp hpass with rfl | rfl | ⟨-, hall⟩
    · omega
    · omega
    · exact eq_composite_iff.mp hcomp (hall 0 hr)

/-! ### The completions -/

/-- The exact completion of a command whose value is a verdict (43_primality.md R183, R188; 40_command_lifecycle.md R106). -/
theorem exec_completes_verdict {i : Instr} {s : State} {snap : Snapshot} {d : Nat} {v : Verdict}
    (hb : s.engine.status.busy = true) (hcur : s.engine.cur = ⟨i, snap⟩)
    (hr : resultOf i snap s.drawsAhead = verdictResult d v) :
    exec i s = .next { s with
      engine := { s.engine with
        x := s.engine.x.set i.fields.rd.val (if decide (v = .probablyPrime) then 1 else 0)
        status := { s.engine.status with
          busy := false, done := true, noinv := false, prime := decide (v = .probablyPrime) } }
      draws := s.draws + d } := by
  rw [exec_busy hb, hcur, hr]
  cases v <;> rfl

/-- The exact completion of ISPRIME, by the verdict of its rounds (43_primality.md R188). -/
theorem exec_isprime_completes {s : State} {rd ra : Reg} {iters : Nat} {snap : Snapshot} {v : Verdict}
    (hb : s.engine.status.busy = true) (hcur : s.engine.cur = ⟨.isprime rd ra iters, snap⟩)
    (hv : (primality snap.a.toNat (roundCount snap) s.drawsAhead).1 = v) :
    exec (.isprime rd ra iters) s = .next { s with
      engine := { s.engine with
        x := s.engine.x.set rd.val (if decide (v = .probablyPrime) then 1 else 0)
        status := { s.engine.status with
          busy := false, done := true, noinv := false, prime := decide (v = .probablyPrime) } }
      draws := s.draws + (primality snap.a.toNat (roundCount snap) s.drawsAhead).2 } :=
  exec_completes_verdict hb hcur (by rw [← hv]; rfl)

/-- Settles O31: the round's closed form is `mrRound_eq_probablyPrime_iff`. -/
theorem mrroundCompletes : Obligations.MrroundCompletes := by
  intro s rd ra rb snap e r hb hcur h3 _ _ h hr
  refine ⟨_, exec_completes_verdict hb hcur rfl, ?_⟩
  rw [decide_eq_true_iff]
  exact mrRound_eq_probablyPrime_iff h3 (lt_two_pow_of_le_toNat le_rfl) h hr

/-- Settles O32: the witnesses are those of the draws ahead. -/
theorem isprimeCompletes : Obligations.IsprimeCompletes := by
  intro s rd ra iters snap hb hcur
  refine ⟨fun k => witness snap.a.toNat (s.drawsAhead k), _, _, exec_isprime_completes hb hcur rfl,
    fun h3 k => witness_bounds h3 _, primality_drawn_le _ _ _, ?_⟩
  rw [decide_eq_true_iff]
  exact primality_eq_probablyPrime_iff

/-- A prime candidate passes the whole test, whatever is drawn (43_primality.md R189). -/
theorem primality_of_prime {n : Nat} (hp : n.Prime) (hn : n < 2 ^ 4096) (rounds : Nat) (draw : Nat → Nat) :
    (primality n rounds draw).1 = .probablyPrime := by
  have hpass : 3 < n → ∀ k < rounds, mrRound n (witness n (draw k)) = .probablyPrime := fun h3 k _ => by
    obtain ⟨h2, hw⟩ := witness_bounds h3 (draw k)
    exact primesPassEveryRound n _ hp h3 hn h2 hw
  have h2 := hp.two_le
  rw [primality_eq_probablyPrime_iff]
  by_cases h3 : 3 < n
  · exact .inr (.inr ⟨h3, hpass h3⟩)
  · omega

/-- Settles O37: `primality_of_prime` at the register's candidate. -/
theorem isprimeAcceptsEveryPrime : Obligations.IsprimeAcceptsEveryPrime := by
  intro s rd ra iters snap hb hcur hp
  have hv := primality_of_prime hp (lt_two_pow_of_le_toNat le_rfl) (roundCount snap) s.drawsAhead
  rw [exec_isprime_completes hb hcur hv]
  exact ⟨_, rfl⟩

/-- A candidate without a strong liar fails its first round (43_primality.md R189). -/
theorem primality_of_no_liar {n rounds : Nat} (h3 : 3 < n) (hr : 1 ≤ rounds)
    (hno : ∀ w, 2 ≤ w → w ≤ n - 2 → mrRound n w = .composite) (draw : Nat → Nat) :
    (primality n rounds draw).1 = .composite := by
  obtain ⟨h2, hw⟩ := witness_bounds h3 (draw 0)
  have hfail := eq_composite_iff.mp (hno _ h2 hw)
  rw [eq_composite_iff, ne_eq, primality_eq_probablyPrime_iff]
  rintro (rfl | rfl | ⟨-, hall⟩)
  · omega
  · omega
  · exact hfail (hall 0 hr)

/-- 4 and 9 have no strong liar (43_primality.md R184, R189). -/
theorem no_liar_of_four_or_nine {n w : Nat} (hn : n = 4 ∨ n = 9) (h2 : 2 ≤ w) (hw : w ≤ n - 2) :
    mrRound n w = .composite := by
  have h4 : ∀ w ∈ Finset.Icc 2 2, mrRound 4 w = .composite := by decide
  have h9 : ∀ w ∈ Finset.Icc 2 7, mrRound 9 w = .composite := by decide
  rcases hn with rfl | rfl
  · exact h4 w (Finset.mem_Icc.mpr ⟨h2, hw⟩)
  · exact h9 w (Finset.mem_Icc.mpr ⟨h2, hw⟩)

/-- Settles O38: 0 and 1 reach no round, and every other candidate of the statement is one without a liar. -/
theorem isprimeRejectsWithoutLiars : Obligations.IsprimeRejectsWithoutLiars := by
  intro s rd ra iters snap hb hcur hcand
  refine ⟨_, exec_isprime_completes (v := .composite) hb hcur ?_⟩
  rcases hcand with h0 | h1 | ⟨h3, hr, hno⟩
  · rw [h0]; rfl
  · rw [h1]; rfl
  · refine primality_of_no_liar h3 hr (fun w h2 hw => ?_) _
    rcases hno with hno | hn
    · exact hno w h2 hw
    · exact no_liar_of_four_or_nine hn h2 hw

/-- Settles O40: no round is left that could fail or draw. -/
theorem compatibilityModeWithOneIterationAcceptsAll : Obligations.CompatibilityModeWithOneIterationAcceptsAll := by
  intro s rd ra snap hb hcur himm hcompat h3
  have hrounds : roundCount snap = 0 := by rw [roundCount, if_pos hcompat, himm]
  have hv : (primality snap.a.toNat (roundCount snap) s.drawsAhead).1 = .probablyPrime :=
    primality_eq_probablyPrime_iff.mpr (.inr (.inr ⟨h3, by simp [hrounds]⟩))
  have hd : (primality snap.a.toNat (roundCount snap) s.drawsAhead).2 = 0 :=
    Nat.le_zero.mp (hrounds ▸ primality_drawn_le _ _ _)
  rw [exec_isprime_completes hb hcur hv, hd]
  rfl

end Sys2Proof.Machine
end

section
/-! PROOFS. The statements of the family 60_exceptions.md: the errors a CMD write ends in, the races of ABORT and SRST
against a completion, the interrupt line, and that no safe run stops. -/

namespace Sys2Proof.Machine

/-! ### Errors at accept -/

/-- The errors found at accept (60_exceptions.md R211, R213). -/
theorem submissionError_code {e : Engine} {v : Word} {code : ErrCode} (h : submissionError e v = some code) :
    code = .illegalCmd ∨ code = .modZero ∨ code = .badArg := by
  cases hd : decode v with
  | none => exact .inl (Option.some.inj (h.symm.trans (submissionError_illegal hd)))
  | some i => exact .inr (checkOf_code ((submissionError_legal hd).symm.trans h))

/-- Settles O23: a write with an error is the exact step `step_cmd_error`, and an accepted one leaves ERR = 0. -/
theorem errorsAtAcceptArePrecise : Obligations.ErrorsAtAcceptArePrecise := by
  intro s t v rest hb hs hstep herr
  cases he : submissionError s.engine v with
  | some code =>
    obtain rfl := Host.Outcome.next.inj ((step_cmd_error hb hs he).symm.trans hstep)
    exact ⟨rfl, submissionError_code he⟩
  | none =>
    obtain ⟨i, hd, hc⟩ := decode_of_submissionError_none he
    obtain rfl := Host.Outcome.next.inj ((step_cmd_accept hb hs hd hc).symm.trans hstep)
    cases herr

/-! ### ABORT and SRST against a completion -/

/-! The three cases of a CTRL write, taken from `ctrlWriteAndRead` (O16). -/

/-- With neither SRST nor an ABORT that finds BUSY = 1, only the stored fields change (10_state.md R27). -/
theorem step_ctrl_plain {s : State} {v : Word} {rest : List Event} (h3 : v[3] = false)
    (hna : ¬ (v[2] = true ∧ s.engine.status.busy = true)) (hs : s.schedule = .write 0x008 .word v :: rest) :
    step s = .next { s with
      schedule := rest, response := .okay, engine := { s.engine with ctrl := .ofWord v } } := by
  obtain ⟨hwrite, -⟩ := ctrlWriteAndRead s rest
  obtain ⟨-, hplain, -⟩ := hwrite v hs
  exact hplain h3 hna

/-- ABORT while BUSY ends the command (40_command_lifecycle.md R108). -/
theorem step_ctrl_abort {s : State} {v : Word} {rest : List Event} (hb : s.engine.status.busy = true)
    (h2 : v[2] = true) (h3 : v[3] = false) (hs : s.schedule = .write 0x008 .word v :: rest) :
    step s = .next { s with
      schedule := rest
      response := .okay
      engine := { s.engine with ctrl := .ofWord v, status := s.engine.status.failed .aborted } } := by
  obtain ⟨hwrite, -⟩ := ctrlWriteAndRead s rest
  obtain ⟨-, -, habort⟩ := hwrite v hs
  exact habort h3 h2 hb

/-- SRST resets the engine, whatever ABORT says (70_reset_and_hazards.md R241). -/
theorem step_ctrl_srst {s : State} {v : Word} {rest : List Event} (h3 : v[3] = true)
    (hs : s.schedule = .write 0x008 .word v :: rest) :
    ∃ c, step s = .next { s with
      schedule := rest, response := .okay, engine := { State.reset.engine with cur := c } } := by
  obtain ⟨hwrite, -⟩ := ctrlWriteAndRead s rest
  obtain ⟨hsrst, -⟩ := hwrite v hs
  exact hsrst h3

/-- A completion point of an idle engine passes without effect (10_state.md R20). -/
theorem step_complete_idle {s : State} {rest : List Event} (hb : s.engine.status.busy = false)
    (hs : s.schedule = .complete :: rest) : step s = .next { s with schedule := rest } :=
  (step_complete hs).trans (engineStep_idle hb)

/-- A completion point of a running engine does what its step, taken now, would do, and is used up (R106). -/
theorem step_complete_busy {s : State} {rest : List Event} (hb : s.engine.status.busy = true)
    (hs : s.schedule = .complete :: rest) :
    ∃ t u, step s = .next t ∧ engineStep s = .next u ∧ t.schedule = rest ∧ t.engine = u.engine ∧
      t.engine.status.busy = false ∧ t.engine.status.done = true ∧ t.engine.status.err = s.engine.status.err :=
  ⟨_, _, (step_complete hs).trans (engineStep_busy hb), engineStep_busy hb, rfl, rfl, rfl, rfl, by simp⟩

/-- Settles O49: each order is two of the exact steps above; after the first of them the engine is idle. -/
theorem abortAndCompletionRace : Obligations.AbortAndCompletionRace := by
  intro s v rest hi hb
  obtain ⟨⟨hbusy, -⟩, -⟩ := hi
  obtain ⟨-, herr, -⟩ := hbusy hb
  refine ⟨fun _ h3 hs => ?_, fun h2 h3 hs => ?_, fun h3 hs => ?_⟩
  · obtain ⟨t, u, ht, hu, hst, htu, hbt, hdt, het⟩ := step_complete_busy hb hs
    have hignored := step_ctrl_plain h3 (by simp [hbt]) hst
    exact ⟨_, u, run_two ht hignored, hu, ⟨⟨hbt, hdt⟩, het.trans herr⟩, by rw [← htu], by rw [← htu]⟩
  · exact ⟨_, run_two (step_ctrl_abort hb h2 h3 hs) (step_complete_idle rfl rfl), ⟨rfl, rfl⟩, rfl, rfl, rfl⟩
  · rcases hs with hs | hs
    · obtain ⟨t, -, ht, -, hst, -⟩ := step_complete_busy hb hs
      obtain ⟨c, hreset⟩ := step_ctrl_srst h3 hst
      exact ⟨_, c, run_two ht hreset, rfl⟩
    · obtain ⟨c, hreset⟩ := step_ctrl_srst h3 hs
      exact ⟨_, c, run_two hreset (step_complete_idle rfl rfl), rfl⟩

/-! ### The interrupt line -/

/-- A W1C of DONE drops `irq` and leaves IE (10_state.md R29). -/
theorem step_status_irq {s : State} {v : Word} {rest : List Event} (h1 : v[1] = true)
    (hs : s.schedule = .write 0x00C .word v :: rest) :
    ∃ t, step s = .next t ∧ t.engine.irq = false ∧ t.engine.ctrl = s.engine.ctrl := by
  refine ⟨_, step_status hs, ?_, rfl⟩
  simp [Engine.irq, writeStatus, h1]

/-- A CMD write to an idle engine sets BUSY if it is accepted and DONE if it is not, never both (R101, R104). -/
theorem step_cmd_done {s t : State} {v : Word} {rest : List Event} (hb : s.engine.status.busy = false)
    (hs : s.schedule = .write 0x010 .word v :: rest) (hstep : step s = .next t) :
    t.engine.ctrl = s.engine.ctrl ∧ t.engine.status.done = !t.engine.status.busy := by
  cases he : submissionError s.engine v with
  | some code =>
    obtain rfl := Host.Outcome.next.inj ((step_cmd_error hb hs he).symm.trans hstep)
    exact ⟨rfl, rfl⟩
  | none =>
    obtain ⟨i, hd, hc⟩ := decode_of_submissionError_none he
    obtain rfl := Host.Outcome.next.inj ((step_cmd_accept hb hs hd hc).symm.trans hstep)
    exact ⟨rfl, rfl⟩

/-- Settles O50: `irq` reads IE and DONE only, so each write is judged by what it does to these two. -/
theorem interruptIsEnableAndDone : Obligations.InterruptIsEnableAndDone := by
  refine ⟨fun _ => rfl, fun _ _ _ _ => rfl, fun s v rest h2 h3 hs => ?_, fun s v rest => step_status_irq,
    fun s t v rest hb hs hstep => ?_⟩
  · exact ⟨_, step_ctrl_plain h3 (by simp [h2]) hs, rfl, rfl⟩
  · obtain ⟨hctrl, hdone⟩ := step_cmd_done hb hs hstep
    rw [Engine.irq, hctrl, hdone]

/-! ### Safe runs -/

/-- A CMD write always answers a next state, and the inputs to come stay (60_exceptions.md R210). -/
theorem submitWord_next (v : Word) (s : State) : ∃ t, submitWord v s = .next t ∧ t.schedule = s.schedule := by
  cases hb : s.engine.status.busy with
  | true => exact ⟨_, submitWord_busy hb, rfl⟩
  | false =>
    cases hd : decode v with
    | none => exact ⟨_, submitWord_illegal hb hd, rfl⟩
    | some i =>
      obtain ⟨t, ht⟩ := exec_next i (beginCommand v s)
      exact ⟨t, (submitWord_legal hb hd).trans ht, (exec_env ht).1⟩

/-- A CTRL write leaves the inputs to come. -/
@[simp] theorem writeCtrl_schedule (v : Word) (s : State) : (writeCtrl v s).schedule = s.schedule := by
  cases h3 : v[3] with
  | true => simp [writeCtrl_srst h3]
  | false => rw [writeCtrl_plain h3]; split <;> rfl

/-- A limb write leaves the inputs to come. -/
@[simp] theorem writeLimb_schedule (i : Reg) (j : Fin 128) (v : Word) (s : State) :
    (writeLimb i j v s).schedule = s.schedule := by
  cases hb : s.engine.status.busy with
  | true => simp [writeLimb_busy hb]
  | false => simp [writeLimb_idle hb]

/-- A write of any word of the aperture is answered (20_memory.md R52). -/
theorem writeWord_next (v : Word) (s : State) (tgt : Target) :
    ∃ t, writeWord v s tgt = .next t ∧ t.schedule = s.schedule := by
  cases tgt with
  | id | param | reserved => exact ⟨s, rfl, rfl⟩
  | ctrl => exact ⟨_, rfl, writeCtrl_schedule v s⟩
  | status => exact ⟨_, rfl, rfl⟩
  | cmd => exact submitWord_next v s
  | limb i j => exact ⟨_, rfl, writeLimb_schedule i j v s⟩

/-- The engine's step never stops the machine (60_exceptions.md R210). -/
theorem engineStep_next (s : State) : ∃ t, engineStep s = .next t ∧ t.schedule = s.schedule := by
  cases hb : s.engine.status.busy with
  | false => exact ⟨s, engineStep_idle hb, rfl⟩
  | true => exact ⟨_, engineStep_busy hb, rfl⟩

/-- An input that reaches the engine is answered: the only stop is an access beyond the aperture (20_memory.md R52, R56). -/
theorem runEvent_next {ev : Event} (h : ev.reaches = true) (s : State) :
    ∃ t, runEvent ev s = .next t ∧ t.schedule = s.schedule := by
  cases ev with
  | complete => exact engineStep_next s
  | reset => exact ⟨_, rfl, rfl⟩
  | read off width =>
    have hin : off < Config.aperture := of_decide_eq_true h
    rcases busRead_cases off width s with ⟨hout, -⟩ | ⟨-, r, d, hread⟩
    · omega
    · exact ⟨_, hread, rfl⟩
  | write off width v =>
    have hin : off < Config.aperture := of_decide_eq_true h
    rcases busWrite_cases off width v s with ⟨hout, -⟩ | ⟨-, -, hwrite⟩ | ⟨-, -, hwrite⟩
    · omega
    · exact ⟨_, hwrite, rfl⟩
    · rw [runEvent_write, hwrite]
      exact writeWord_next v (respond .okay s) (target off)

/-- A step from a state whose inputs all reach the engine is answered, and takes one input. -/
theorem step_next {s : State} (h : s.schedule.all Event.reaches = true) :
    ∃ t, step s = .next t ∧ t.schedule = s.schedule.tail := by
  cases hs : s.schedule with
  | nil =>
    obtain ⟨t, ht, hst⟩ := engineStep_next s
    exact ⟨t, (step_nil hs).trans ht, hst.trans hs⟩
  | cons ev rest =>
    rw [hs, List.all_cons, Bool.and_eq_true] at h
    obtain ⟨hev, -⟩ := h
    obtain ⟨t, ht, hst⟩ := runEvent_next hev { s with schedule := rest }
    exact ⟨t, (step_cons hs).trans ht, hst⟩

/-- A safe state steps to a safe state. -/
theorem step_safe {s : State} (h : Safe s) : ∃ t, step s = .next t ∧ Safe t := by
  obtain ⟨hinv, hreach⟩ := h
  obtain ⟨t, ht, hst⟩ := step_next hreach
  refine ⟨t, ht, everyStepKeepsTheInvariant s t hinv ht, ?_⟩
  rw [hst, List.all_eq_true]
  exact fun ev hev => List.all_eq_true.mp hreach ev (List.mem_of_mem_tail hev)

/-- Settles O53, by induction on the length of the run. -/
theorem safeRunsNeverStop : Obligations.SafeRunsNeverStop := by
  intro n
  induction n with
  | zero => exact fun s h => ⟨s, rfl, h⟩
  | succ n ih =>
    intro s h
    obtain ⟨u, hstep, hu⟩ := step_safe h
    obtain ⟨t, hrun, ht⟩ := ih u hu
    exact ⟨t, (run_succ hstep).trans hrun, ht⟩

end Sys2Proof.Machine
end

section
/-! PROOFS. The statements of the family 70_reset_and_hazards.md: what `rst` and SRST leave, that a command they discard has
no later effect, and that ABORTED comes from CTRL.ABORT only. -/

namespace Sys2Proof.Machine

/-! ### The values of reset -/

/-- Settles O51: `Engine.inv_reset`, and no input waits after reset. -/
theorem invariantHoldsAtReset : Obligations.InvariantHoldsAtReset :=
  ⟨Engine.inv_reset, Engine.inv_reset, rfl⟩

/-- Settles O6: `rst` leaves `Engine.reset`, and ID and PARAM are read from constants. -/
theorem hardwareResetValues : Obligations.HardwareResetValues := by
  intro s rest hs
  refine ⟨_, step_reset hs, rfl, reg_reset, ?_⟩
  and_intros <;> rfl

/-- Settles O7: both kinds of reset leave `Engine.reset`, but for the latched command. -/
theorem softResetIsHardwareReset : Obligations.SoftResetIsHardwareReset := by
  intro s v rest h3 hs
  obtain ⟨c, hsoft⟩ := step_ctrl_srst h3 hs
  exact ⟨_, _, hsoft, step_reset rfl, rfl, rfl, rfl, reg_reset, rfl, rfl⟩

/-! ### A discarded command -/

/-- A reset of either kind (70_reset_and_hazards.md R240, R241). -/
def Event.Resets (ev : Event) : Prop := ev = .reset ∨ ∃ v : Word, v[3] = true ∧ ev = .write 0x008 .word v

/-- An input that changes nothing in an idle engine: a completion point, or a read of the aperture. -/
def Event.Quiet (ev : Event) : Prop := ev = .complete ∨ ∃ off width, off < 0x2000 ∧ ev = .read off width

/-- Either reset leaves the engine at its reset values, the latched command open (10_state.md R37). -/
theorem step_resets {s : State} {ev : Event} {rest : List Event} (hev : ev.Resets) (hs : s.schedule = ev :: rest) :
    ∃ t c, step s = .next t ∧ t.schedule = rest ∧ t.engine = { State.reset.engine with cur := c } := by
  rcases hev with rfl | ⟨v, h3, rfl⟩
  · exact ⟨_, _, step_reset hs, rfl, rfl⟩
  · obtain ⟨c, hsoft⟩ := step_ctrl_srst h3 hs
    exact ⟨_, c, hsoft, rfl, rfl⟩

/-- While idle no completion is enabled (10_state.md R20), and no read changes the engine (20_memory.md R59). -/
theorem step_quiet {s : State} {ev : Event} {rest : List Event} (hb : s.engine.status.busy = false) (hev : ev.Quiet)
    (hs : s.schedule = ev :: rest) :
    ∃ t, step s = .next t ∧ t.schedule = rest ∧ t.engine = s.engine := by
  rcases hev with rfl | ⟨off, width, hoff, rfl⟩
  · exact ⟨_, step_complete_idle hb hs, rfl, rfl⟩
  · obtain ⟨r, d, hread, -⟩ := readsHaveNoSideEffect s off width rest hs hoff
    exact ⟨_, hread, rfl, rfl⟩

/-- Any series of quiet inputs leaves an idle engine as it is: induction on the series. -/
theorem run_quiet {evs rest : List Event} {s : State} (hb : s.engine.status.busy = false) (hevs : ∀ ev ∈ evs, ev.Quiet)
    (hs : s.schedule = evs ++ rest) :
    ∃ t, Host.Core.run core evs.length s = .next t ∧ t.schedule = rest ∧ t.engine = s.engine := by
  induction evs generalizing s with
  | nil => exact ⟨s, rfl, hs, rfl⟩
  | cons ev evs ih =>
    obtain ⟨hev, hevs⟩ := List.forall_mem_cons.mp hevs
    obtain ⟨u, hstep, hsu, hu⟩ := step_quiet hb hev hs
    obtain ⟨t, hrun, hst, ht⟩ := ih (hu ▸ hb) hevs hsu
    exact ⟨t, (run_succ hstep).trans hrun, hst, ht.trans hu⟩

/-! ### The code ABORTED -/

/-- A CMD write to an idle engine ends in no error or in one found at accept, never in ABORTED (60_exceptions.md R211). -/
theorem step_cmd_errcode_ne_aborted {s t : State} {v : Word} {rest : List Event} (hb : s.engine.status.busy = false)
    (hs : s.schedule = .write 0x010 .word v :: rest) (hstep : step s = .next t) :
    t.engine.status.errcode ≠ .aborted := by
  cases he : submissionError s.engine v with
  | some code =>
    obtain rfl := Host.Outcome.next.inj ((step_cmd_error hb hs he).symm.trans hstep)
    rcases submissionError_code he with rfl | rfl | rfl <;> exact nofun
  | none =>
    obtain ⟨i, hd, hc⟩ := decode_of_submissionError_none he
    obtain rfl := Host.Outcome.next.inj ((step_cmd_accept hb hs hd hc).symm.trans hstep)
    exact nofun

/-- ABORTED appears in one case of `StepEffect` only: a CTRL write with ABORT and not SRST while BUSY (R108, R242). -/
theorem step_aborted {s t : State} (hstep : step s = .next t) (h0 : s.engine.status.errcode ≠ .aborted)
    (h1 : t.engine.status.errcode = .aborted) :
    s.engine.status.busy = true ∧
      ∃ v rest, v[2] = true ∧ v[3] = false ∧ s.schedule = .write 0x008 .word v :: rest := by
  have heff := step_effect hstep
  generalize he : t.engine = e at heff h1
  cases heff with
  | aborted v rest hs h2 h3 hb => exact ⟨hb, v, rest, h2, h3, hs⟩
  | rejected v rest code hb hs hc => exact absurd (he ▸ h1) (step_cmd_errcode_ne_aborted hb hs hstep)
  | reset | accepted => cases h1
  | completed => exact absurd (by simpa using h1) h0
  | statusWritten v =>
    rw [Status.w1c_errcode] at h1
    split at h1
    · cases h1
    · exact absurd h1 h0
  | unchanged | ctrlWritten | ovrSet | limbWritten => exact absurd h1 h0

/-- Settles O8: the reset leaves the engine idle at its reset values, where the quiet inputs leave it. -/
theorem resetWhileBusyDropsTheCommand : Obligations.ResetWhileBusyDropsTheCommand := by
  refine ⟨fun s ev evs rest _ hev hevs hs => ?_, fun s t => step_aborted⟩
  obtain ⟨u, c, hstep, hsu, hu⟩ := step_resets hev hs
  obtain ⟨t, hrun, hst, ht⟩ := run_quiet (by rw [hu]; rfl) hevs hsu
  rw [hu] at ht
  refine ⟨t, (run_succ hstep).trans hrun, hst, ?_⟩
  rw [ht]
  exact ⟨reg_reset, rfl, rfl, rfl, rfl⟩

end Sys2Proof.Machine
end
